-- ==== Sys2Proof/Word.lean ====
section
/-! DEFINITION. The engine's word and byte types (R6). Every operation on words is modulo 2^32 (R7): that is
`BitVec`'s own `+`, `^^^`, `|||`, `<<<`, `>>>`. -/

namespace Sys2Proof

/-- A word: a 32-bit unsigned integer (R6, `WORD_BITS` of R5). -/
abbrev Word := BitVec 32

/-- A byte: an 8-bit unsigned integer (R6). -/
abbrev Byte := BitVec 8

/-- The size of the address space: addresses have `ADDR_BITS` = 32 bits (R5, R30). -/
abbrev addrSpace : Nat := 2 ^ 32

end Sys2Proof
end

