-- ==== Sys2Proof/Syntax.lean ====
section
/-! DEFINITION. The commands of the engine: one constructor per row of spec/opcode_table.json (R53), with the operands
of R50 to R52. -/

namespace Sys2Proof

/-- A decoded command. `klen` and `nlen` are the zero-extended 8-bit byte counts of R52; the other operands are whole
words. -/
inductive Instr where
  /-- INIT (R64): construct an instance from a key, a nonce and an initial counter. -/
  | init (klen nlen kaddr naddr ctr : Word)
  /-- ENCRYPT (R92): XOR `len` bytes of source with keystream into destination. -/
  | encrypt (daddr saddr len : Word)
  /-- DECRYPT (R98): identical to ENCRYPT. -/
  | decrypt (daddr saddr len : Word)
deriving DecidableEq, Repr

/-- The four 32-bit words of a command as they are delivered on the command port, `w0` the header (R48). -/
structure Words where
  w0 : Word
  w1 : Word
  w2 : Word
  w3 : Word
deriving DecidableEq, Repr

end Sys2Proof
end

