-- ==== Sys2Proof/WellFormed.lean ====
section
/-! DEFINITION. Which commands can be written: `klen` and `nlen` must lie in 0 to 255 (R61), since the header holds
them in 8 bits each (R50). -/

namespace Sys2Proof

/-- A byte count that fits the 8-bit fields KLEN and NLEN (R50, R61). -/
def fitsByte (v : Word) : Bool := decide (v.toNat < 256)

/-- A command some four words encode (R50, R51, R61). -/
def WellFormed : Instr → Bool
  | .init klen nlen _ _ _ => fitsByte klen && fitsByte nlen
  | .encrypt _ _ _ => true
  | .decrypt _ _ _ => true

end Sys2Proof
end

