-- ==== Sys2Proof/Decode.lean ====
section
/-! DEFINITION. The decoder of R58, total on any four words, and the encoder of R61 written from the formats of R50
and R51. -/

namespace Sys2Proof

/-- Why four words are no command: the decoder's verdict `ILLEGAL` (R58), by name. -/
inductive Illegal where
  /-- `OP` is 0x00 or 0x04 to 0xFF (R54). -/
  | reservedOpcode
  /-- A header bit that must be 0 is set (R55). -/
  | reservedBits
deriving DecidableEq, Repr

/-- `OP = W0[7:0]` (R49). -/
def opField (w0 : Word) : BitVec 8 := w0.extractLsb' 0 8

/-- `KLEN = zext_32(W0[15:8])` (R50, R52). -/
def klenField (w0 : Word) : Word := (w0.extractLsb' 8 8).setWidth 32

/-- `NLEN = zext_32(W0[23:16])` (R50, R52). -/
def nlenField (w0 : Word) : Word := (w0.extractLsb' 16 8).setWidth 32

/-- `W0[31:24]`, reserved in the format CMD-INIT (R50). -/
def initReserved (w0 : Word) : BitVec 8 := w0.extractLsb' 24 8

/-- `W0[31:8]`, reserved in the format CMD-XOR (R51). -/
def xorReserved (w0 : Word) : BitVec 24 := w0.extractLsb' 8 24

/-- The decoder (R58). It reads no engine state and no memory. -/
def decode (w : Words) : Except Illegal Instr :=
  if opField w.w0 = 0x01#8 then
    if initReserved w.w0 = 0#8 then .ok (.init (klenField w.w0) (nlenField w.w0) w.w1 w.w2 w.w3)
    else .error .reservedBits
  else if opField w.w0 = 0x02#8 then
    if xorReserved w.w0 = 0#24 then .ok (.encrypt w.w1 w.w2 w.w3) else .error .reservedBits
  else if opField w.w0 = 0x03#8 then
    if xorReserved w.w0 = 0#24 then .ok (.decrypt w.w1 w.w2 w.w3) else .error .reservedBits
  else .error .reservedOpcode

/-- The encoder (R61): `W0 = (nlen << 16) | (klen << 8) | 0x01` for INIT, `0x02` and `0x03` for the others. -/
def encode : Instr → Words
  | .init klen nlen kaddr naddr ctr => ⟨nlen <<< 16 ||| klen <<< 8 ||| 0x01#32, kaddr, naddr, ctr⟩
  | .encrypt daddr saddr len => ⟨0x02#32, daddr, saddr, len⟩
  | .decrypt daddr saddr len => ⟨0x03#32, daddr, saddr, len⟩

/-- The four words whose bits are the low `nbits` bits of `w`, every bit above them 0: W0 the least significant, as
they are delivered on the port (R48; the port carries whole words, so no byte order applies). Log entry 19. -/
def wordsOfBits (nbits w : Nat) : Words :=
  let v := w % 2 ^ nbits
  ⟨BitVec.ofNat 32 v, BitVec.ofNat 32 (v / 2 ^ 32), BitVec.ofNat 32 (v / 2 ^ 64), BitVec.ofNat 32 (v / 2 ^ 96)⟩

/-- The instruction the decoder reads from an instruction whose bits are `w`; none where it answers `ILLEGAL`. -/
def decodeTableWord (nbits w : Nat) : Option Instr :=
  match decode (wordsOfBits nbits w) with
  | .ok i => some i
  | .error _ => none

end Sys2Proof
end

