-- ==== Sys2Proof/Config.lean ====
section
/-! DEFINITION. What the spec leaves without a value (R28, R72, R111; treatment "any value" of S1, S6), as constants with no
body: no proof can rest on what they are. -/

namespace Sys2Proof

/-- The state layout an instance has: the 1-bit field `LAYOUT` (R21). -/
inductive Layout where
  /-- `REF` (0): 8-byte nonce, `S[12..13]` a 64-bit counter (R17). -/
  | ref
  /-- `IETF` (1): 12-byte nonce, `S[12]` a 32-bit counter (R18). -/
  | ietf
deriving DecidableEq, Repr, Inhabited

/-- FREE VALUE: word `i` of an `S` that "has no value" (R28, R72, R111, S1); `draw` numbers the losses of an instance.
DESIGN CHOICE, log entries 1 and 3: uninterpreted, so safe. -/
opaque Config.freeWord (draw i : Nat) : Word

/-- FREE VALUE: a `LAYOUT` that "has no value" (R28, R72, R111, S1).
DESIGN CHOICE, log entries 2 and 3: uninterpreted, so safe. -/
opaque Config.freeLayout (draw : Nat) : Layout

/-- FREE VALUE: a `READY` that has no value, that of a faulted engine (R111).
DESIGN CHOICE, log entry 3: uninterpreted, so safe. -/
opaque Config.freeReady (draw : Nat) : Bool

/-- FREE VALUE: the byte at address `a` of a destination range that has no value, that of a faulting command (R111).
DESIGN CHOICE, log entry 3: uninterpreted, so safe. -/
opaque Config.freeByte (draw a : Nat) : Byte

end Sys2Proof
end

