-- ==== Sys2Proof/Machine/State.lean ====
section
/-! DEFINITION. The machine's state as plain data: the engines (10_state.md), host memory (R30), the platform's
parameters (R5) and the host's pending actions (R118); the reasons a step can stop; and the state after reset. -/

namespace Sys2Proof.Machine

/-- The sixteen words of the cipher state `S` (R14), and of the working array `X` (R19). -/
abbrev Words16 := Vector Word 16

/-- The model faults of R103: how a command of `exec` ends that neither completes nor is refused, each recorded with the
command that raised it (R111). `step` then puts the command's engine into the faulted state (`enterFaulted`), and the
other engines go on. -/
inductive Fault where
  /-- BufferFault (R109). Raised by INIT, ENCRYPT and DECRYPT on an access that is not admitted or a range that passes
  2^32: the source's "undefined behavior". Safe: everything R111 leaves without a value is a free value (log entry 9). -/
  | bufferFault (command : Instr)
  /-- OverlapUnmodelled (R110). Raised by ENCRYPT and DECRYPT on ranges that overlap at different addresses. Safe, as
  BufferFault is. -/
  | overlapUnmodelled (command : Instr)
deriving DecidableEq, Repr

/-- One engine instance: each has its own `S`, `READY` and `LAYOUT` (R27). The working array `X` is not architectural
state (R19; log entry 13) and is the local value of `blockOf`. -/
structure Engine where
  /-- The cipher state `S[0..15]` (R14). -/
  S : Words16
  /-- `READY`: the engine holds a constructed instance (R20). -/
  ready : Bool
  /-- `LAYOUT` (R21). -/
  layout : Layout
  /-- The result words delivered on the response port since the engine's last reset, in issue order (R48, R59).
  DESIGN CHOICE, log entry 8. -/
  results : List Word
  /-- The faulted state: the fault that ended the engine's run, with its kind and command; none while the engine runs.
  It is never cleared (R111, R120). -/
  faulted : Option Fault
deriving DecidableEq, Repr

/-- The two kinds of byte access that `MemAdmit` tells apart (R5). -/
inductive Access where
  | read
  | write
deriving DecidableEq, Repr

/-- A range of host memory and what the platform admits in it. A list of them is the OPEN parameter `MemAdmit`
(R5, R32; DESIGN CHOICE, log entry 5: every predicate on the 2^32 addresses is such a list). -/
structure Region where
  base : Nat
  size : Nat
  read : Bool
  write : Bool
deriving DecidableEq, Repr

/-- What the host may do between commands (R118), one atomic step each. Log entries 7 and 11. -/
inductive HostAction where
  /-- Issue the four words of one command on the command port of engine number `engine` (R48). -/
  | issue (engine : Nat) (words : Words)
  /-- Change a byte of host memory. -/
  | write (addr : Word) (v : Byte)
  /-- Assert the reset of engine number `engine` (R119). -/
  | reset (engine : Nat)
deriving DecidableEq, Repr

/-- Host memory: the bytes that do not read as `unlistedByte`, by strictly rising address. -/
abbrev Memory := List Host.Cell

/-- What a byte of host memory that nothing has written reads as: "Memory not listed is 0" (95_test_vectors.md §3).
DESIGN CHOICE, unsafe, log entry 4. -/
def unlistedByte : Byte := 0#8

/-- The whole machine. -/
structure State where
  /-- The engines with a smaller number than the one the host drives (R27, R116; log entry 6). -/
  before : List Engine
  /-- The engine the host drives: the one a command acts on. Its number is `before.length`. -/
  engine : Engine
  /-- The engines with a greater number. -/
  after : List Engine
  /-- Host memory `Mem` (R30). -/
  mem : Memory
  /-- The platform's `MemAdmit` (R32). A parameter (R29): no step changes it. -/
  admitted : List Region
  /-- The host's actions not yet taken, the next one first (R24, R29). -/
  inputs : List HostAction
  /-- The MODEL's own field, not the spec's: how many free values of `Config` have been used (log entry 3). -/
  draws : Nat
deriving DecidableEq, Repr

/-- Why the model gives a step no meaning. -/
inductive Refusal where
  /-- An instruction that has no meaning yet. Raised by `exec`'s refused arms only (there are none). Safe. -/
  | notModelled (mnemonic : String)
  /-- The host's next action names an engine that does not exist: there are `N_ENGINES` of them (R5). Raised by `step`,
  by no command. Safe (log entry 12). -/
  | noSuchEngine (engine : Nat)
deriving DecidableEq, Repr

/-- An `S` that has no value (R28, R72, R111): sixteen free words. -/
@[irreducible] def freeS (draw : Nat) : Words16 := Vector.ofFn fun i : Fin 16 => Config.freeWord draw i.val

/-- An engine right after reset (R28): `READY` = 0, `S` and `LAYOUT` with no value, no result word pending, not faulted.
DESIGN CHOICE for `S` and `LAYOUT`, log entries 1 and 2. -/
def Engine.reset (draw : Nat) : Engine :=
  { S := freeS draw, ready := false, layout := Config.freeLayout draw, results := [], faulted := none }

/-- The engine state of a faulted engine (R111): the fault recorded; `S`, `READY` and `LAYOUT` have no value. -/
def Engine.faultedState (draw : Nat) (fault : Fault) (results : List Word) : Engine :=
  { S := freeS draw, ready := Config.freeReady draw, layout := Config.freeLayout draw, results := results,
    faulted := some fault }

/-- The platform's parameters (R5): `N_ENGINES` - 1 and `MemAdmit`. -/
structure Platform where
  /-- `N_ENGINES` - 1: there is always at least one engine. -/
  otherEngines : Nat
  /-- `MemAdmit`. -/
  admitted : List Region
deriving DecidableEq, Repr

/-- The machine on a given platform right after reset of every engine (R28, R119, R121): idle, nothing issued, no byte
of memory listed. -/
def State.boot (p : Platform) : State :=
  { before := []
    engine := Engine.reset 0
    after := (List.range p.otherEngines).map fun k => Engine.reset (k + 1)
    mem := []
    admitted := p.admitted
    inputs := []
    draws := p.otherEngines + 1 }

/-- The platform of `State.reset`: one engine, every byte admitted for reading and writing.
DESIGN CHOICE, unsafe, log entries 5 and 6: both are OPEN parameters. -/
def Platform.allAdmitted : Platform := { otherEngines := 0, admitted := [⟨0, addrSpace, true, true⟩] }

/-- The machine right after reset (R28). -/
def State.reset : State := State.boot Platform.allAdmitted

end Sys2Proof.Machine
end

