-- ==== Sys2Proof/Machine/Operands.lean ====
section
/-! DEFINITION. The operand forms: packing of bytes into words and back (R8, R34), byte ranges of host memory and the
checks made on them (R33, R43), all on unbounded naturals (R7, R33), and the blocks a length takes (R95). -/

namespace Sys2Proof.Machine

/-- `le32(b0, b1, b2, b3)`: the first byte least significant (R8). -/
def le32 (b0 b1 b2 b3 : Byte) : Word :=
  b0.setWidth 32 ||| b1.setWidth 32 <<< 8 ||| b2.setWidth 32 <<< 16 ||| b3.setWidth 32 <<< 24

/-- `bytes_le32(w) = [w[7:0], w[15:8], w[23:16], w[31:24]]` (R8). -/
def bytesLe32 (w : Word) : List Byte :=
  [w.extractLsb' 0 8, w.extractLsb' 8 8, w.extractLsb' 16 8, w.extractLsb' 24 8]

/-- Word `i` of a byte sequence: `W[i] = le32(B[4i], B[4i+1], B[4i+2], B[4i+3])` (R8). -/
def wordAt (bytes : List Byte) (i : Nat) : Word :=
  le32 (bytes.getD (4 * i) 0) (bytes.getD (4 * i + 1) 0) (bytes.getD (4 * i + 2) 0) (bytes.getD (4 * i + 3) 0)

/-- A non-empty range `[a, a + n)` that passes the top of the address space (R33). An empty range never does. -/
def crossesTop (a n : Word) : Bool := decide (0 < n.toNat) && decide (addrSpace < a.toNat + n.toNat)

/-- Source and destination ranges that intersect at different addresses (R43): the case the spec does not model. -/
def partialOverlap (daddr saddr n : Word) : Bool :=
  decide (0 < n.toNat) && decide (saddr ≠ daddr) &&
    decide (saddr.toNat < daddr.toNat + n.toNat) && decide (daddr.toNat < saddr.toNat + n.toNat)

/-- `ceil(n / 64)`, the least `k` with `64k >= n`: the keystream blocks a length takes (R11, R95). -/
def blockCount (n : Nat) : Nat := (n + 63) / 64

end Sys2Proof.Machine
end

