-- ==== Sys2Proof/Machine/Flags.lean ====
section
/-! DEFINITION. The engine's flags. There are no condition codes (R25): the flags are `READY` (R20) and `LAYOUT` (R21).
A successful INIT writes both with `S` (R71); a failed INIT (R72) and a reset (R119) clear `READY` and leave `S` and
`LAYOUT` without a value; after a model fault `READY` has no value either (R111). -/

namespace Sys2Proof.Machine

/-- A successful construction: `S` and `LAYOUT` written, `READY` set (R71). -/
def construct (S : Words16) (layout : Layout) (s : State) : State :=
  { s with engine := { s.engine with S := S, ready := true, layout := layout } }

/-- `FailConstruction` (R72): `READY` cleared; `S` and `LAYOUT` have no value, which is a fresh free value each
(log entry 3). -/
def failConstruction (s : State) : State :=
  { s with
    engine := { s.engine with S := freeS s.draws, ready := false, layout := Config.freeLayout s.draws }
    draws := s.draws + 1 }

/-- The engine's reset (R119, R28): every piece of engine state at its reset value, host memory untouched. A model fault
is not cleared by it (R120): a faulted engine stays faulted, its flags and `S` without a value (R111; DEDUCED, log
entry 21), and no result word is pending. -/
def resetEngine (s : State) : State :=
  { s with
    engine :=
      match s.engine.faulted with
      | none => Engine.reset s.draws
      | some fault => Engine.faultedState s.draws fault []
    draws := s.draws + 1 }

end Sys2Proof.Machine
end

