-- ==== Sys2Proof/Machine/Ops.lean ====
section
/-! DEFINITION. The named operations over memory and the response port: the primitives of R10. The engine has no trap
(R103, R114): an abnormal outcome is a result code (`respond`) or a model fault (`raiseBufferFault`,
`raiseOverlapUnmodelled`), which puts the engine into the faulted state (`enterFaulted`). -/

namespace Sys2Proof.Machine

/-! ## Host memory (R30) -/

/-- The byte of host memory at `a`. -/
def Memory.read : Memory → Nat → Byte
  | [], _ => unlistedByte
  | (b, v) :: rest, a => if a = b then v else Memory.read rest a

/-- Host memory with byte `v` at `a`; the canonical form is kept: writing what an unlisted byte reads as removes the
entry. -/
def Memory.write : Memory → Nat → Byte → Memory
  | [], a, v => if v = unlistedByte then [] else [(a, v)]
  | (b, u) :: rest, a, v =>
    if a < b then (if v = unlistedByte then (b, u) :: rest else (a, v) :: (b, u) :: rest)
    else if a = b then (if v = unlistedByte then rest else (a, v) :: rest)
    else (b, u) :: Memory.write rest a v

/-- The canonical form: strictly rising addresses inside the address space, and no byte listed that would read so
unlisted. -/
abbrev Memory.wf (m : Memory) : Prop :=
  m.Pairwise (fun c d => c.1 < d.1) ∧ ∀ c ∈ m, c.1 < addrSpace ∧ c.2 ≠ unlistedByte

/-! ## Admission (R32) -/

/-- A region admits an access of kind `kind` to address `a`. -/
def Region.admits (r : Region) (a : Nat) (kind : Access) : Bool :=
  decide (r.base ≤ a) && decide (a < r.base + r.size) &&
    match kind with
    | .read => r.read
    | .write => r.write

/-- `MemAdmit(addr, kind)` (R5, R32). No byte outside the address space is admitted (R30; DEDUCED, safe, log entry 17). -/
def State.admits (s : State) (a : Nat) (kind : Access) : Bool :=
  decide (a < addrSpace) && s.admitted.any fun r => r.admits a kind

/-! ## Byte accesses (R10, R37): none where the access is not admitted -/

/-- `MemRead(addr, 1)` (R10). -/
def memRead (s : State) (a : Nat) : Option Byte :=
  if s.admits a .read then some (s.mem.read a) else none

/-- `MemWrite(addr, 1, v)` (R10). -/
def memWrite (s : State) (a : Nat) (v : Byte) : Option State :=
  if s.admits a .write then some { s with mem := s.mem.write a v } else none

/-- `n` bytes from `a` up, each read with `MemRead` at ascending addresses (R42). -/
def readBytes (s : State) : Nat → Nat → Option (List Byte)
  | _, 0 => some []
  | a, n + 1 =>
    match memRead s a with
    | none => none
    | some b =>
      match readBytes s (a + 1) n with
      | none => none
      | some bs => some (b :: bs)

/-! ## Completing a command -/

/-- The result codes (R60). -/
inductive ResultCode where
  /-- 0x00 (R108). -/
  | ok
  /-- 0x01 (R104). -/
  | wrongKeySize
  /-- 0x02 (R105). -/
  | wrongNonceSize
  /-- 0x03 (R106). -/
  | illegalCommand
  /-- 0x04 (R107). -/
  | notConstructed
deriving DecidableEq, Repr

/-- The numeric value of a result code (R60). -/
def codeValue : ResultCode → Byte
  | .ok => 0x00#8
  | .wrongKeySize => 0x01#8
  | .wrongNonceSize => 0x02#8
  | .illegalCommand => 0x03#8
  | .notConstructed => 0x04#8

/-- The result word: `R[7:0]` is the code and `R[31:8]` is 0 (R59). -/
def resultWord (c : ResultCode) : Word := (codeValue c).setWidth 32

/-- `respond(code)` (R10): deliver the result word on the engine's response port, after those delivered before it. -/
def respond (c : ResultCode) (s : State) : State :=
  { s with engine := { s.engine with results := s.engine.results ++ [resultWord c] } }

/-- `raise Fault(BufferFault)` (R10, R109), recorded with the command that raised it (R111). -/
def raiseBufferFault (command : Instr) : Host.Outcome State Fault Refusal := .fault (.bufferFault command)

/-- `raise Fault(OverlapUnmodelled)` (R10, R110), recorded with the command that raised it (R111). -/
def raiseOverlapUnmodelled (command : Instr) : Host.Outcome State Fault Refusal :=
  .fault (.overlapUnmodelled command)

/-! ## The faulted state (R111) -/

/-- The command a fault is recorded with. -/
def faultCommand : Fault → Instr
  | .bufferFault command => command
  | .overlapUnmodelled command => command

/-- The base and length of a command's destination range; INIT writes no memory (R31). -/
def destinationRange : Instr → Nat × Nat
  | .init _ _ _ _ _ => (0, 0)
  | .encrypt daddr _ len => (daddr.toNat, len.toNat)
  | .decrypt daddr _ len => (daddr.toNat, len.toNat)

/-- The `n` bytes from `a` up lose their values (R111): those that lie inside the address space become free values. -/
def loseBytes (draw : Nat) : Nat → Nat → Memory → Memory
  | _, 0, m => m
  | a, n + 1, m => loseBytes draw (a + 1) n (if a < addrSpace then m.write a (Config.freeByte draw a) else m)

/-- A model fault ends the run of the engine that the host drives (R111): the fault is recorded, no result word is
delivered, and `S`, `READY` and `LAYOUT` have no value. The bytes of the faulting command's destination range have none
either, from then on and whatever writes to them: `loseFaulted` sees to that at every step. The other engines stay as they
are. -/
def enterFaulted (fault : Fault) (s : State) : State :=
  { s with engine := Engine.faultedState s.draws fault s.engine.results, draws := s.draws + 1 }

end Sys2Proof.Machine
end

