-- ==== Sys2Proof/Machine/Init.lean ====
section
/-! DEFINITION. INIT (40_state_init.md): construct an instance. -/

namespace Sys2Proof.Machine

/-- The constant word `i` of "expand 32-byte k" (R15, R67; the values are PRESUMED by the spec itself, log entry 15). -/
def sigma : Fin 4 → Word
  | 0 => 0x61707865#32
  | 1 => 0x3320646e#32
  | 2 => 0x79622d32#32
  | 3 => 0x6b206574#32

/-- The state INIT builds (R64, R67, R68), from the 32 key bytes and the words `S[12..15]`. -/
def instanceWords (key : List Byte) (w12 w13 w14 w15 : Word) : Words16 :=
  #v[sigma 0, sigma 1, sigma 2, sigma 3,
    wordAt key 0, wordAt key 1, wordAt key 2, wordAt key 3, wordAt key 4, wordAt key 5, wordAt key 6, wordAt key 7,
    w12, w13, w14, w15]

/-- The reference layout: the counter starts at 0 whatever `CTR` is, the nonce is `S[14..15]` (R69, R74). -/
def refWords (key nonce : List Byte) : Words16 := instanceWords key 0#32 0#32 (wordAt nonce 0) (wordAt nonce 1)

/-- The IETF layout: `S[12]` is `CTR`, the nonce is `S[13..15]` (R70). -/
def ietfWords (key nonce : List Byte) (ctr : Word) : Words16 :=
  instanceWords key ctr (wordAt nonce 0) (wordAt nonce 1) (wordAt nonce 2)

/-- INIT (R64): the key-size check, the nonce-size check, the range checks, the key and nonce reads, then the state. -/
def execInit (klen nlen kaddr naddr ctr : Word) (s : State) : Host.Outcome State Fault Refusal :=
  let command := Instr.init klen nlen kaddr naddr ctr
  if klen ≠ 32#32 then .next (respond .wrongKeySize (failConstruction s))
  else if nlen ≠ 8#32 ∧ nlen ≠ 12#32 then .next (respond .wrongNonceSize (failConstruction s))
  else if crossesTop kaddr klen || crossesTop naddr nlen then raiseBufferFault command
  else
    match readBytes s kaddr.toNat klen.toNat, readBytes s naddr.toNat nlen.toNat with
    | some key, some nonce =>
      if nlen = 8#32 then .next (respond .ok (construct (refWords key nonce) .ref s))
      else .next (respond .ok (construct (ietfWords key nonce ctr) .ietf s))
    | _, _ => raiseBufferFault command

end Sys2Proof.Machine
end

