-- ==== Sys2Proof/Machine/Block.lean ====
section
/-! DEFINITION. The block function (41_block_function.md) and counter advancement (42_counter_advance.md): the engine's
internal operations, pure functions of the sixteen words. None reads memory or a flag. -/

namespace Sys2Proof.Machine

/-- `rotl32(v, n)` for `0 < n < 32` (R7). -/
def rotl32 (v : Word) (n : Nat) : Word := v <<< n ||| v >>> (32 - n)

/-- `QR(a, b, c, d)`: the quarter-round, eight strictly sequential steps (R75). -/
def quarterRound (a b c d : Word) : Word × Word × Word × Word :=
  let a := a + b
  let d := rotl32 (d ^^^ a) 16
  let c := c + d
  let b := rotl32 (b ^^^ c) 12
  let a := a + b
  let d := rotl32 (d ^^^ a) 8
  let c := c + d
  let b := rotl32 (b ^^^ c) 7
  (a, b, c, d)

/-- `QRX(i, j, k, l)`: the quarter-round on four words of the working array (R76). -/
def qrx (i j k l : Fin 16) (X : Words16) : Words16 :=
  let q := quarterRound X[i] X[j] X[k] X[l]
  (((X.set i q.1).set j q.2.1).set k q.2.2.1).set l q.2.2.2

/-- COLUMNROUND (R77). -/
def columnRound (X : Words16) : Words16 :=
  qrx 3 7 11 15 (qrx 2 6 10 14 (qrx 1 5 9 13 (qrx 0 4 8 12 X)))

/-- DIAGONALROUND (R78). -/
def diagonalRound (X : Words16) : Words16 :=
  qrx 3 4 9 14 (qrx 2 7 8 13 (qrx 1 6 11 12 (qrx 0 5 10 15 X)))

/-- DOUBLEROUND: the column round, then the diagonal round (R79). -/
def doubleRound (X : Words16) : Words16 := diagonalRound (columnRound X)

/-- `n` double rounds. -/
def doubleRounds : Nat → Words16 → Words16
  | 0, X => X
  | n + 1, X => doubleRounds n (doubleRound X)

/-- ROUNDS20: ten double rounds, `DOUBLE_ROUNDS` of R5 (R80). -/
def rounds20 (X : Words16) : Words16 := doubleRounds 10 X

/-- Feed-forward: `Y[i] = X[i] + S[i]` (R82). -/
def feedForward (X S : Words16) : Words16 := X.zipWith (· + ·) S

/-- Serialisation: the sixteen words in order, each least significant byte first (R83). -/
def serialize (Y : Words16) : List Byte := Y.toList.flatMap bytesLe32

/-- `BLOCK_OF(S)`: the 64 bytes of the keystream block for state `S`, which it does not change (R84, R85). -/
@[irreducible] def blockOf (S : Words16) : List Byte := serialize (feedForward (rounds20 S) S)

/-- `ADVANCE(S)`: `S[12] + 1`, and `S[13] + 1` where `S[12]` wrapped to 0: the only carry, in both layouts (R87, R89). -/
def advance (S : Words16) : Words16 :=
  let c := S[12] + 1#32
  if c = 0#32 then (S.set 12 c).set 13 (S[13] + 1#32) else S.set 12 c

/-- `ADVANCE^q(S)`: `q` applications of ADVANCE (R94). -/
def advances : Nat → Words16 → Words16
  | 0, S => S
  | q + 1, S => advances q (advance S)

end Sys2Proof.Machine
end

