-- ==== Sys2Proof/Machine/Xor.lean ====
section
/-! DEFINITION. ENCRYPT and DECRYPT (43_stream_xor.md): the streaming XOR. -/

namespace Sys2Proof.Machine

/-- The inner loop of STREAM over the keystream bytes used from one block: at each offset read the source byte, then
write the destination byte (R42, R93). None where an access is not admitted (R32). -/
def xorBytes : List Byte → Nat → Nat → State → Option State
  | [], _, _, s => some s
  | k :: ks, daddr, saddr, s =>
    match memRead s saddr with
    | none => none
    | some b =>
      match memWrite s daddr (b ^^^ k) with
      | none => none
      | some t => xorBytes ks (daddr + 1) (saddr + 1) t

/-- ADVANCE on the engine's state (R87). -/
def advanceCounter (s : State) : State := { s with engine := { s.engine with S := advance s.engine.S } }

/-- One turn of the block loop: at most 64 bytes XORed with the block of the current counter, then one ADVANCE, for a
partial block too (R93, R90; C1 of 90_conflicts.md fixes this order). -/
def xorBlock (daddr saddr n : Nat) (s : State) : Option State :=
  (xorBytes ((blockOf s.engine.S).take n) daddr saddr s).map advanceCounter

/-- STREAM (R93): `blocks` turns of the loop, with `rem` bytes left. The loop of R93 runs while `rem > 0`, that is
`blockCount rem` times. -/
def stream : Nat → Nat → Nat → Nat → State → Option State
  | 0, _, _, _, s => some s
  | blocks + 1, daddr, saddr, rem, s =>
    match xorBlock daddr saddr (min rem 64) s with
    | none => none
    | some t => stream blocks (daddr + 64) (saddr + 64) (rem - min rem 64) t

/-- What ENCRYPT and DECRYPT both do (R92, R98): the checks in the order of R112, then STREAM. `command` is the command
a fault is recorded with (R111). -/
def xorCommand (command : Instr) (daddr saddr len : Word) (s : State) : Host.Outcome State Fault Refusal :=
  if s.engine.ready = false then .next (respond .notConstructed s)
  else if crossesTop saddr len || crossesTop daddr len then raiseBufferFault command
  else if partialOverlap daddr saddr len then raiseOverlapUnmodelled command
  else
    match stream (blockCount len.toNat) daddr.toNat saddr.toNat len.toNat s with
    | none => raiseBufferFault command
    | some t => .next (respond .ok t)

/-- ENCRYPT (R92). -/
def execEncrypt (daddr saddr len : Word) (s : State) : Host.Outcome State Fault Refusal :=
  xorCommand (.encrypt daddr saddr len) daddr saddr len s

/-- DECRYPT, "identical to encrypt (XOR is self-inverse)" (R98). -/
def execDecrypt (daddr saddr len : Word) (s : State) : Host.Outcome State Fault Refusal :=
  xorCommand (.decrypt daddr saddr len) daddr saddr len s

end Sys2Proof.Machine
end

