-- ==== Sys2Proof/Machine/Dispatch.lean ====
section
/-! DEFINITION. The meaning of each command: one arm per row of spec/opcode_table.json. -/

namespace Sys2Proof.Machine

def exec (i : Instr) (s : State) : Host.Outcome State Fault Refusal :=
  match i with
  | .init klen nlen kaddr naddr ctr => Sys2Proof.Machine.execInit klen nlen kaddr naddr ctr s
  | .encrypt daddr saddr len => Sys2Proof.Machine.execEncrypt daddr saddr len s
  | .decrypt daddr saddr len => Sys2Proof.Machine.execDecrypt daddr saddr len s

end Sys2Proof.Machine
end

