-- ==== Sys2Proof/Machine/Port.lean ====
section
/-! DEFINITION. What stands around a command: taking the host's next action (R118), turning to the engine it names
(R116), answering an illegal command (R54, R106), and the host's own moves on memory and reset. -/

namespace Sys2Proof.Machine

/-- The engines in index order; there are `N_ENGINES` of them (R5, R27). -/
def State.engines (s : State) : List Engine := s.before ++ s.engine :: s.after

/-- The destination ranges of the commands that engines have faulted on, each as base and length. -/
def lostRanges (engines : List Engine) : List (Nat × Nat) :=
  engines.filterMap fun e => e.faulted.map fun fault => destinationRange (faultCommand fault)

/-- "From the fault on", every byte of a faulting command's destination range has no value (R111): each such byte is a
fresh free value, whatever it held. Where no engine has faulted nothing changes. Log entry 22. -/
def loseFaulted (s : State) : State :=
  match lostRanges s.engines with
  | [] => s
  | ranges =>
    { s with
      mem := ranges.foldl (fun m range => loseBytes s.draws range.1 range.2 m) s.mem
      draws := s.draws + 1 }

/-- The number of the engine the host drives. -/
def State.index (s : State) : Nat := s.before.length

/-- The host turns to engine number `k`; none where there is no such engine. No engine changes. -/
def State.focus (k : Nat) (s : State) : Option State :=
  match s.engines.drop k with
  | [] => none
  | e :: rest => some { s with before := s.engines.take k, engine := e, after := rest }

/-- The host's action list with its first action taken. -/
def State.pop (s : State) : State := { s with inputs := s.inputs.tail }

/-- An illegal command: all four words are consumed, nothing changes, and the engine responds ILLEGAL_COMMAND
(R54, R55, R106). -/
def execIllegal (s : State) : Host.Outcome State Fault Refusal := .next (respond .illegalCommand s)

/-- What becomes of a command on the engine the host drives: a command that completes gives its next state, one that ends
in a model fault ends that engine's run (R103, R111). -/
def runCommand (i : Instr) (s : State) : Host.Outcome State Fault Refusal :=
  match exec i s with
  | .next t => .next t
  | .fault fault => .next (enterFaulted fault s)
  | .refused reason => .refused reason

/-- The engine the host drives is given four words: the command they decode to, or the fixed answer to an illegal one
(R48, R57, R58). A faulted engine accepts no command: nothing happens and no result word is delivered (R111; DEDUCED,
log entry 21). -/
def runWords (w : Words) (s : State) : Host.Outcome State Fault Refusal :=
  match s.engine.faulted with
  | some _ => .next s
  | none =>
    match decode w with
    | .ok i => runCommand i s
    | .error _ => execIllegal s

/-- The host changes a byte of its memory between commands (R118). `MemAdmit` binds the engine's accesses only
(DEDUCED, log entry 11). -/
def hostWrite (addr : Word) (v : Byte) (s : State) : State := { s with mem := s.mem.write addr.toNat v }

/-- One action of the host, already taken from the list (R118). A command is one atomic step (R13, R41). -/
def hostMove (a : HostAction) (s : State) : Host.Outcome State Fault Refusal :=
  match a with
  | .issue k w =>
    match s.focus k with
    | none => .refused (.noSuchEngine k)
    | some t => runWords w t
  | .write addr v => .next (hostWrite addr v s)
  | .reset k =>
    match s.focus k with
    | none => .refused (.noSuchEngine k)
    | some t => .next (resetEngine t)

/-- What a step leaves: the bytes that have no value are drawn afresh (R111). -/
def settle (outcome : Host.Outcome State Fault Refusal) : Host.Outcome State Fault Refusal :=
  match outcome with
  | .next t => .next (loseFaulted t)
  | .fault fault => .fault fault
  | .refused reason => .refused reason

/-- The host gives nothing to do: the engines are idle, ready to accept a command (R121), and nothing changes. -/
def idle (s : State) : Host.Outcome State Fault Refusal := .next s

end Sys2Proof.Machine
end

