-- ==== Sys2Proof/Machine/Step.lean ====
section
/-! DEFINITION. One step of the machine: the host's next action, a command being one atomic step (R13, R41, R132). -/

namespace Sys2Proof.Machine

/-- One step: the host's next action, or nothing where it has none. After it the bytes that faulted commands left without
a value are drawn afresh (R111). -/
def step (s : State) : Host.Outcome State Fault Refusal :=
  match s.inputs with
  | [] => settle (idle s)
  | a :: _ => settle (hostMove a s.pop)

/-- `s` with the instruction whose bits are `w` issued next, on the command port of the engine the host drives (R48);
log entries 7 and 19. -/
def State.withFetchWord (s : State) (nbits w : Nat) : State :=
  { s with inputs := .issue s.index (wordsOfBits nbits w) :: s.inputs }

end Sys2Proof.Machine
end

