-- ==== Sys2Proof/Machine/Assembler.lean ====
section
/-! DEFINITION. The textual syntax of R61 and the pseudo-instructions of R62. It has no effect on the machine (D22):
it says which four words a line of text stands for. -/

namespace Sys2Proof.Machine

/-- One line of assembler text, operands as written (R61, R62). -/
inductive AsmLine where
  | init (klen nlen kaddr naddr ctr : Nat)
  | encrypt (daddr saddr len : Nat)
  | decrypt (daddr saddr len : Nat)
  /-- `.cmd w0, w1, w2, w3`: a raw four-word command. -/
  | raw (w0 w1 w2 w3 : Nat)
  /-- `INIT.IETF kaddr, naddr, ctr`. -/
  | initIetf (kaddr naddr ctr : Nat)
  /-- `INIT.REF kaddr, naddr`. -/
  | initRef (kaddr naddr : Nat)
deriving DecidableEq, Repr

/-- The expansion of a pseudo-instruction (R62); other lines stand for themselves. -/
def expandPseudo : AsmLine → AsmLine
  | .initIetf kaddr naddr ctr => .init 32 12 kaddr naddr ctr
  | .initRef kaddr naddr => .init 32 8 kaddr naddr 0
  | line => line

/-- An operand that must lie in 0 to 255 (R61); none where it does not: it is not truncated. -/
def byteOperand (n : Nat) : Option Word := if n < 2 ^ 8 then some (BitVec.ofNat 32 n) else none

/-- An operand that must lie in 0 to 2^32 - 1 (R61); none where it does not. -/
def wordOperand (n : Nat) : Option Word := if n < 2 ^ 32 then some (BitVec.ofNat 32 n) else none

/-- The four words of a line whose pseudo-instruction is expanded; none is an assembly error (R61). -/
def assembleCore : AsmLine → Option Words
  | .init klen nlen kaddr naddr ctr =>
    match byteOperand klen, byteOperand nlen, wordOperand kaddr, wordOperand naddr, wordOperand ctr with
    | some k, some n, some ka, some na, some c => some (encode (.init k n ka na c))
    | _, _, _, _, _ => none
  | .encrypt daddr saddr len =>
    match wordOperand daddr, wordOperand saddr, wordOperand len with
    | some d, some a, some l => some (encode (.encrypt d a l))
    | _, _, _ => none
  | .decrypt daddr saddr len =>
    match wordOperand daddr, wordOperand saddr, wordOperand len with
    | some d, some a, some l => some (encode (.decrypt d a l))
    | _, _, _ => none
  | .raw w0 w1 w2 w3 =>
    match wordOperand w0, wordOperand w1, wordOperand w2, wordOperand w3 with
    | some a, some b, some c, some d => some ⟨a, b, c, d⟩
    | _, _, _, _ => none
  | .initIetf _ _ _ => none
  | .initRef _ _ => none

/-- The four words of a line (R61, R62); none is an assembly error. -/
def assemble (line : AsmLine) : Option Words := assembleCore (expandPseudo line)

/-! ## Reading a line of text (lexical details the spec leaves open: DESIGN CHOICE, log entry 16) -/

/-- A blank: a space or a tab. -/
def isBlank (c : Char) : Bool := c == ' ' || c == '\t'

/-- `;` starts a comment (R61). -/
def stripComment (line : List Char) : List Char := line.takeWhile (· != ';')

/-- Text without the blanks around it. -/
def trimBlanks (cs : List Char) : List Char := ((cs.dropWhile isBlank).reverse.dropWhile isBlank).reverse

/-- The value of a digit in base 16, of which 0 to 9 are the decimal digits. -/
def digitValue (c : Char) : Option Nat :=
  if '0' ≤ c ∧ c ≤ '9' then some (c.toNat - 48)
  else if 'a' ≤ c ∧ c ≤ 'f' then some (c.toNat - 87)
  else if 'A' ≤ c ∧ c ≤ 'F' then some (c.toNat - 55)
  else none

/-- The digits of a numeral after those already read. -/
def readDigits (base : Nat) : Nat → List Char → Option Nat
  | acc, [] => some acc
  | acc, c :: cs =>
    match digitValue c with
    | none => none
    | some d => if d < base then readDigits base (acc * base + d) cs else none

/-- A decimal or `0x`-prefixed hexadecimal unsigned integer (R61). -/
def readNumber : List Char → Option Nat
  | '0' :: 'x' :: c :: cs => readDigits 16 0 (c :: cs)
  | c :: cs => readDigits 10 0 (c :: cs)
  | [] => none

/-- Text cut at its commas (R61). -/
def splitCommas : List Char → List (List Char)
  | [] => [[]]
  | c :: cs =>
    match splitCommas cs with
    | [] => [[c]]
    | first :: rest => if c == ',' then [] :: first :: rest else (c :: first) :: rest

/-- A list of operands; none where one is no number. -/
def readOperands : List (List Char) → Option (List Nat)
  | [] => some []
  | o :: os =>
    match readNumber (trimBlanks o), readOperands os with
    | some n, some ns => some (n :: ns)
    | _, _ => none

/-- The line a mnemonic and its operands make; none where the mnemonic or the number of operands is wrong. Mnemonics are
upper case (R61). -/
def makeLine (mnemonic : List Char) (operands : List Nat) : Option AsmLine :=
  if mnemonic = ['I', 'N', 'I', 'T'] then
    match operands with
    | [klen, nlen, kaddr, naddr, ctr] => some (.init klen nlen kaddr naddr ctr)
    | _ => none
  else if mnemonic = ['E', 'N', 'C', 'R', 'Y', 'P', 'T'] then
    match operands with
    | [daddr, saddr, len] => some (.encrypt daddr saddr len)
    | _ => none
  else if mnemonic = ['D', 'E', 'C', 'R', 'Y', 'P', 'T'] then
    match operands with
    | [daddr, saddr, len] => some (.decrypt daddr saddr len)
    | _ => none
  else if mnemonic = ['.', 'c', 'm', 'd'] then
    match operands with
    | [w0, w1, w2, w3] => some (.raw w0 w1 w2 w3)
    | _ => none
  else if mnemonic = ['I', 'N', 'I', 'T', '.', 'I', 'E', 'T', 'F'] then
    match operands with
    | [kaddr, naddr, ctr] => some (.initIetf kaddr naddr ctr)
    | _ => none
  else if mnemonic = ['I', 'N', 'I', 'T', '.', 'R', 'E', 'F'] then
    match operands with
    | [kaddr, naddr] => some (.initRef kaddr naddr)
    | _ => none
  else none

/-- What a line of text is. -/
inductive AsmText where
  /-- Blank or only a comment. -/
  | nothing
  | line (l : AsmLine)
  /-- An assembly error. -/
  | error
deriving DecidableEq, Repr

/-- One line of assembler text read: a mnemonic, blanks, and operands separated by commas (R61). -/
def parseLine (text : List Char) : AsmText :=
  match trimBlanks (stripComment text) with
  | [] => .nothing
  | c :: cs =>
    let body := c :: cs
    match readOperands (splitCommas (body.dropWhile fun x => !isBlank x)) with
    | none => .error
    | some operands =>
      match makeLine (body.takeWhile fun x => !isBlank x) operands with
      | none => .error
      | some l => .line l

end Sys2Proof.Machine
end

