-- ==== Sys2Proof/Safety.lean ====
section
/-! DEFINITION. What counts as a good state and a safe step, in the terms the obligations use. -/

namespace Sys2Proof

open Sys2Proof.Machine

/-- The constant region holds the four constant words (R15). -/
def constantsHold (S : Words16) : Prop :=
  S[0] = sigma 0 ∧ S[1] = sigma 1 ∧ S[2] = sigma 2 ∧ S[3] = sigma 3

/-- The part of R22 that one state shows: while `READY` = 1 the constant region holds the constants. In a faulted engine
`READY` has no value (R111). -/
def engineConstants (e : Engine) : Prop := e.faulted = none → e.ready = true → constantsHold e.S

/-- Every word an engine has delivered is one of the five result words (R60: codes 0x05 to 0xFF are never returned). -/
def resultsKnown (e : Engine) : Prop := ∀ w ∈ e.results, ∃ c : ResultCode, w = resultWord c

/-- The machine's invariant: memory in its canonical form, and every engine's constants and results as R22 and R60
say. -/
structure Inv (s : State) : Prop where
  memory : s.mem.wf
  constants : ∀ e ∈ s.engines, engineConstants e
  results : ∀ e ∈ s.engines, resultsKnown e

/-- The whole of range `[a, a + n)` is admitted for accesses of kind `kind` (R32, R123). -/
def rangeAdmitted (s : State) (a n : Nat) (kind : Access) : Prop := ∀ i < n, s.admits (a + i) kind = true

/-- The byte at `a` has a value: it lies in no destination range of a command that an engine has faulted on (R111). -/
def holdsValue (s : State) (a : Nat) : Prop :=
  ∀ e ∈ s.engines, ∀ fault, e.faulted = some fault →
    a < (destinationRange (faultCommand fault)).1 ∨
      (destinationRange (faultCommand fault)).1 + (destinationRange (faultCommand fault)).2 ≤ a

/-- A range that is empty or lies inside the address space (R33). -/
def insideSpace (a n : Word) : Prop := n.toNat = 0 ∨ a.toNat + n.toNat ≤ 2 ^ 32

/-- Source and destination ranges that are empty, equal or disjoint (R43, R129). -/
def equalOrDisjoint (daddr saddr len : Word) : Prop :=
  len.toNat = 0 ∨ saddr = daddr ∨ saddr.toNat + len.toNat ≤ daddr.toNat ∨ daddr.toNat + len.toNat ≤ saddr.toNat

/-- The duties of R123, R128 and R129 on an ENCRYPT or DECRYPT, which finish it without a fault: ranges inside the
address space, equal or disjoint, every byte admitted. Written in the spec's own terms, not in those of the checks
`execEncrypt` makes. -/
structure XorDuties (s : State) (daddr saddr len : Word) : Prop where
  source : insideSpace saddr len
  destination : insideSpace daddr len
  overlap : equalOrDisjoint daddr saddr len
  readable : rangeAdmitted s saddr.toNat len.toNat .read
  writable : rangeAdmitted s daddr.toNat len.toNat .write

/-- The duties of R123 on an INIT of valid sizes, in the spec's own terms. -/
structure InitDuties (s : State) (kaddr naddr nlen : Word) : Prop where
  key : kaddr.toNat + 32 ≤ 2 ^ 32
  nonce : naddr.toNat + nlen.toNat ≤ 2 ^ 32
  keyReadable : rangeAdmitted s kaddr.toNat 32 .read
  nonceReadable : rangeAdmitted s naddr.toNat nlen.toNat .read

/-- The `n` bytes of host memory from `a` up. -/
def bytesAt (m : Memory) (a n : Nat) : List Byte := (List.range n).map fun i => m.read (a + i)

/-- The little-endian word of the four bytes of host memory at `a` (R34). -/
def le32At (m : Memory) (a : Nat) : Word := le32 (m.read a) (m.read (a + 1)) (m.read (a + 2)) (m.read (a + 3))

/-- The engine a host action acts on; none for a write to host memory. -/
def targetEngine : HostAction → Option Nat
  | .issue k _ => some k
  | .write _ _ => none
  | .reset k => some k

/-- The keystream blocks a command on a running engine generates: none for INIT, none without an instance (R90). -/
def blocksOf (e : Engine) : Instr → Nat
  | .init _ _ _ _ _ => 0
  | .encrypt _ _ len | .decrypt _ _ len => if e.ready = true ∧ e.faulted = none then blockCount len.toNat else 0

/-- The keystream blocks engine `j`, as it is in `e`, generates where the host takes action `a` and no fault is raised. -/
def blocksFor (j : Nat) (e : Engine) : HostAction → Nat
  | .issue k w =>
    match decode w with
    | .ok i => if k = j then blocksOf e i else 0
    | .error _ => 0
  | .write _ _ => 0
  | .reset _ => 0

/-- Keystream byte `i` of a command that starts in state `S` (R94). -/
def keystreamByte (S : Words16) (i : Nat) : Byte := (blockOf (advances (i / 64) S)).getD (i % 64) 0

/-- `S[13] ‖ S[12]`: the block counter of the reference layout (R88). -/
def counter64 (S : Words16) : BitVec 64 := S[13] ++ S[12]

/-- What R94, R95, R100 and R101 say of the state after an ENCRYPT or DECRYPT that completes: each destination byte the
old source byte XORed with the keystream byte of its offset, every other byte as before, `S` advanced once per block
generated, one OK, and nothing else changed. -/
def XorResult (daddr saddr len : Word) (s t : State) : Prop :=
  (∀ i < len.toNat, t.mem.read (daddr.toNat + i) =
    s.mem.read (saddr.toNat + i) ^^^ (blockOf (advances (i / 64) s.engine.S)).getD (i % 64) 0#8) ∧
  (∀ a : Nat, a < daddr.toNat ∨ daddr.toNat + len.toNat ≤ a → t.mem.read a = s.mem.read a) ∧
  t.engine.S = advances ((len.toNat + 63) / 64) s.engine.S ∧
  t.engine.ready = true ∧ t.engine.layout = s.engine.layout ∧
  t.engine.results = s.engine.results ++ [0x00#32] ∧ t.engine.faulted = s.engine.faulted ∧
  t.before = s.before ∧ t.after = s.after ∧ t.admitted = s.admitted ∧ t.inputs = s.inputs ∧ t.draws = s.draws

/-- A step is safe where it ends in a next state and no engine has taken a model fault in it. -/
def safeStep (s : State) : Prop :=
  ∃ t, step s = .next t ∧ t.engines.map (·.faulted) = s.engines.map (·.faulted)

end Sys2Proof
end

