-- ==== Sys2Proof/Certificates/Slice0/Obligations.lean ====
section
/-! DEFINITION. The statements about the model, each formalising rules of spec/. -/

open Sys2Proof Sys2Proof.Machine

/-! ## Words, bytes and the encoding (00_scope.md, 30_encoding.md) -/

/-- R8: `le32` is the little-endian number of its four bytes, `bytes_le32` is its inverse, and word `i` of a byte
sequence is the number of its bytes `4i` to `4i + 3`. -/
def Obligations.PackingIsLittleEndian : Prop :=
  (∀ b0 b1 b2 b3 : Byte,
    (le32 b0 b1 b2 b3).toNat = b0.toNat + 2 ^ 8 * b1.toNat + 2 ^ 16 * b2.toNat + 2 ^ 24 * b3.toNat ∧
      bytesLe32 (le32 b0 b1 b2 b3) = [b0, b1, b2, b3]) ∧
  (∀ w : Word, le32 (w.extractLsb' 0 8) (w.extractLsb' 8 8) (w.extractLsb' 16 8) (w.extractLsb' 24 8) = w) ∧
  ∀ (bytes : List Byte) (i : Nat) (b0 b1 b2 b3 : Byte),
    bytes[4 * i]? = some b0 → bytes[4 * i + 1]? = some b1 → bytes[4 * i + 2]? = some b2 → bytes[4 * i + 3]? = some b3 →
    (wordAt bytes i).toNat = b0.toNat + 2 ^ 8 * b1.toNat + 2 ^ 16 * b2.toNat + 2 ^ 24 * b3.toNat

/-- R7: for `0 < n < 32`, bit `i` of `rotl32(v, n)` is bit `i - n` of `v`, counted modulo 32. -/
def Obligations.RotateMovesEveryBit : Prop :=
  ∀ (v : Word) (n i : Nat), 0 < n → n < 32 → i < 32 → (rotl32 v n).getLsbD i = v.getLsbD ((i + 32 - n) % 32)

/-- R58: the decoder, on the header as a number: `OP` is `W0 mod 256`, `KLEN` and `NLEN` the next two bytes, the
reserved bits what is left. -/
def Obligations.DecoderReadsHeaderFields : Prop :=
  ∀ w : Words,
    (w.w0.toNat % 2 ^ 8 = 1 ∧ w.w0.toNat / 2 ^ 24 = 0 →
      decode w = .ok (.init (BitVec.ofNat 32 (w.w0.toNat / 2 ^ 8 % 2 ^ 8)) (BitVec.ofNat 32 (w.w0.toNat / 2 ^ 16 % 2 ^ 8))
        w.w1 w.w2 w.w3)) ∧
    (w.w0.toNat % 2 ^ 8 = 2 ∧ w.w0.toNat / 2 ^ 8 = 0 → decode w = .ok (.encrypt w.w1 w.w2 w.w3)) ∧
    (w.w0.toNat % 2 ^ 8 = 3 ∧ w.w0.toNat / 2 ^ 8 = 0 → decode w = .ok (.decrypt w.w1 w.w2 w.w3)) ∧
    (¬ (w.w0.toNat % 2 ^ 8 = 1 ∧ w.w0.toNat / 2 ^ 24 = 0) ∧
      ¬ ((w.w0.toNat % 2 ^ 8 = 2 ∨ w.w0.toNat % 2 ^ 8 = 3) ∧ w.w0.toNat / 2 ^ 8 = 0) →
      ∃ reason : Illegal, decode w = .error reason)

/-- R63, which the spec marks as its own inference from R50, R51 and R61: the header words of the common forms, and
the two forms that decode as INIT and return an error code. -/
def Obligations.CommonFormHeaders : Prop :=
  ∀ w1 w2 w3 : Word,
    decode ⟨0x000C2001#32, w1, w2, w3⟩ = .ok (.init 32#32 12#32 w1 w2 w3) ∧
    decode ⟨0x00082001#32, w1, w2, w3⟩ = .ok (.init 32#32 8#32 w1 w2 w3) ∧
    decode ⟨0x00000002#32, w1, w2, w3⟩ = .ok (.encrypt w1 w2 w3) ∧
    decode ⟨0x00000003#32, w1, w2, w3⟩ = .ok (.decrypt w1 w2 w3) ∧
    decode ⟨0x000C1001#32, w1, w2, w3⟩ = .ok (.init 16#32 12#32 w1 w2 w3) ∧
    decode ⟨0x000A2001#32, w1, w2, w3⟩ = .ok (.init 32#32 10#32 w1 w2 w3) ∧
    ∀ s : State,
      (∃ t, exec (.init 16#32 12#32 w1 w2 w3) s = .next t ∧ t.engine.results = s.engine.results ++ [0x01#32]) ∧
      ∃ t, exec (.init 32#32 10#32 w1 w2 w3) s = .next t ∧ t.engine.results = s.engine.results ++ [0x02#32]

/-- R50, R51, R58, R61: decoding the encoding of any well-formed command gives it back, every operand at every value. -/
def Obligations.DecodeOfEncode : Prop := ∀ i : Instr, WellFormed i = true → decode (encode i) = .ok i

/-- R50, R51, R56, R58: words that decode have one meaning: they are the encoding of a well-formed command. -/
def Obligations.EncodeOfDecode : Prop :=
  ∀ (w : Words) (i : Instr), decode w = .ok i → WellFormed i = true ∧ encode i = w

/-- R61: the words an assembler line gives, and the assembly error of an operand out of range. -/
def Obligations.AssemblerEncodesOrRejects : Prop :=
  (∀ klen nlen kaddr naddr ctr : Nat,
    (klen ≤ 255 ∧ nlen ≤ 255 ∧ kaddr < 2 ^ 32 ∧ naddr < 2 ^ 32 ∧ ctr < 2 ^ 32 →
      ∃ w : Words, assemble (.init klen nlen kaddr naddr ctr) = some w ∧
        w.w0.toNat = nlen * 2 ^ 16 + klen * 2 ^ 8 + 1 ∧ w.w1.toNat = kaddr ∧ w.w2.toNat = naddr ∧ w.w3.toNat = ctr) ∧
    (¬ (klen ≤ 255 ∧ nlen ≤ 255 ∧ kaddr < 2 ^ 32 ∧ naddr < 2 ^ 32 ∧ ctr < 2 ^ 32) →
      assemble (.init klen nlen kaddr naddr ctr) = none)) ∧
  (∀ daddr saddr len : Nat,
    (daddr < 2 ^ 32 ∧ saddr < 2 ^ 32 ∧ len < 2 ^ 32 →
      ∃ w v : Words, assemble (.encrypt daddr saddr len) = some w ∧ assemble (.decrypt daddr saddr len) = some v ∧
        w.w0.toNat = 2 ∧ v.w0.toNat = 3 ∧ w.w1.toNat = daddr ∧ w.w2.toNat = saddr ∧ w.w3.toNat = len ∧
        v.w1.toNat = daddr ∧ v.w2.toNat = saddr ∧ v.w3.toNat = len) ∧
    (¬ (daddr < 2 ^ 32 ∧ saddr < 2 ^ 32 ∧ len < 2 ^ 32) →
      assemble (.encrypt daddr saddr len) = none ∧ assemble (.decrypt daddr saddr len) = none)) ∧
  (∀ w0 w1 w2 w3 : Nat,
    (w0 < 2 ^ 32 ∧ w1 < 2 ^ 32 ∧ w2 < 2 ^ 32 ∧ w3 < 2 ^ 32 →
      ∃ w : Words, assemble (.raw w0 w1 w2 w3) = some w ∧
        w.w0.toNat = w0 ∧ w.w1.toNat = w1 ∧ w.w2.toNat = w2 ∧ w.w3.toNat = w3) ∧
    (¬ (w0 < 2 ^ 32 ∧ w1 < 2 ^ 32 ∧ w2 < 2 ^ 32 ∧ w3 < 2 ^ 32) → assemble (.raw w0 w1 w2 w3) = none))

/-- R62: a pseudo-instruction assembles as its expansion. -/
def Obligations.PseudoInstructionsExpand : Prop :=
  ∀ kaddr naddr ctr : Nat,
    assemble (.initIetf kaddr naddr ctr) = assemble (.init 32 12 kaddr naddr ctr) ∧
    assemble (.initRef kaddr naddr) = assemble (.init 32 8 kaddr naddr 0)

/-! ## One step of the machine (10_state.md, 60_exceptions.md, 70_reset_and_hazards.md) -/

/-- R24, R48, R57, R103, on the list of host actions that log entry 7 chose: where the host's next action gives four
words to an engine that exists and has not faulted and they decode, the step is that command's `exec` on the machine
turned to that engine, the action taken from the list and nothing else changed; a model fault of the command becomes
the faulted state of that engine (R111); and the bytes that faulted commands left without a value are drawn afresh
(`loseFaulted`, log entries 3 and 22, which changes nothing where no engine has faulted). -/
def Obligations.StepRunsDecodedCommand : Prop :=
  ∀ (s : State) (k : Nat) (w : Words) (rest : List HostAction) (i : Instr) (e : Engine),
    s.inputs = .issue k w :: rest → s.engines[k]? = some e → e.faulted = none → decode w = .ok i →
    ∃ t : State, t.engine = e ∧ t.engines = s.engines ∧ t.index = k ∧
      t.mem = s.mem ∧ t.admitted = s.admitted ∧ t.inputs = rest ∧ t.draws = s.draws ∧
      step s = (match exec i t with
        | .next u => .next (loseFaulted u)
        | .fault f => .next (loseFaulted (enterFaulted f t))
        | .refused r => .refused r)

/-- R48 (log entries 7 and 19, and 3 and 22 for the bytes without a value): on an engine that has not faulted, an
instruction put where the next one is taken is the one the next step runs; a model fault of it becomes the engine's
faulted state, and bytes without a value are drawn afresh (R111). -/
def Obligations.PlacedInstructionRunsNext : Prop :=
  ∀ (s : State) (nbits w : Nat) (i : Instr), s.engine.faulted = none → decodeTableWord nbits w = some i →
    step (s.withFetchWord nbits w) = (match exec i s with
      | .next u => .next (loseFaulted u)
      | .fault f => .next (loseFaulted (enterFaulted f s))
      | .refused r => .refused r)

/-- R121 (the host's list and the refusal are the model's, log entries 7 and 12, and the bytes drawn afresh are log
entries 3 and 22): with nothing given to do the machine is idle and a step changes nothing but the bytes that faulted
commands left without a value (R111); and a step is refused only where the host's next action names an engine that
does not exist, so no command is ever refused. -/
def Obligations.IdleOrRefusedOnlyByHost : Prop :=
  ∀ s : State,
    (s.inputs = [] → step s = .next (loseFaulted s) ∧ ((∀ e ∈ s.engines, e.faulted = none) → step s = .next s)) ∧
    ∀ r : Refusal, step s = .refused r →
      ∃ k : Nat, s.engines.length ≤ k ∧ r = .noSuchEngine k ∧ (s.inputs.head?.bind targetEngine) = some k

/-- R54, R55, R106, R111 (the host's list is the model's choice of log entry 7, and the bytes drawn afresh,
`loseFaulted`, are log entries 3 and 22): a reserved opcode, or a reserved header bit set, is answered with
ILLEGAL_COMMAND (0x03) by an engine that has not faulted (R111); no memory (but the bytes without a value), no flag
and no word of `S` changes. -/
def Obligations.ReservedEncodingsAnswered : Prop :=
  ∀ (s : State) (k : Nat) (w : Words) (rest : List HostAction) (e : Engine),
    s.inputs = .issue k w :: rest → s.engines[k]? = some e → e.faulted = none →
    (w.w0.toNat % 2 ^ 8 = 0 ∨ 4 ≤ w.w0.toNat % 2 ^ 8 ∨
      (w.w0.toNat % 2 ^ 8 = 1 ∧ w.w0.toNat / 2 ^ 24 ≠ 0) ∨
      ((w.w0.toNat % 2 ^ 8 = 2 ∨ w.w0.toNat % 2 ^ 8 = 3) ∧ w.w0.toNat / 2 ^ 8 ≠ 0)) →
    ∃ t : State, step s = .next (loseFaulted t) ∧
      t.engine = { e with results := e.results ++ [0x03#32] } ∧ t.index = k ∧
      t.before = s.engines.take k ∧ t.after = s.engines.drop (k + 1) ∧
      t.mem = s.mem ∧ t.admitted = s.admitted ∧ t.inputs = rest ∧ t.draws = s.draws

/-- R119, R28: a reset clears the engine it names, which has not faulted, takes back any pending result word and
touches neither host memory nor another engine; after it ENCRYPT and DECRYPT return NOT_CONSTRUCTED (0x04). What `S`
and `LAYOUT` then hold is not said (free values, log entries 1 to 3), and bytes that faulted commands left without a
value are drawn afresh (R111, `loseFaulted`, log entry 22); the host's list is log entry 7. -/
def Obligations.ResetEventClearsEngine : Prop :=
  ∀ (s : State) (k : Nat) (rest : List HostAction) (e : Engine),
    s.inputs = .reset k :: rest → s.engines[k]? = some e → e.faulted = none →
    ∃ t : State, step s = .next (loseFaulted t) ∧ t.engine.ready = false ∧ t.engine.results = [] ∧ t.engine.faulted = none ∧ t.index = k ∧
      t.before = s.engines.take k ∧ t.after = s.engines.drop (k + 1) ∧
      t.mem = s.mem ∧ t.admitted = s.admitted ∧ t.inputs = rest ∧
      ∀ daddr saddr len : Word,
        exec (.encrypt daddr saddr len) (loseFaulted t) =
            .next { loseFaulted t with engine := { t.engine with results := [0x04#32] } } ∧
        exec (.decrypt daddr saddr len) (loseFaulted t) =
            .next { loseFaulted t with engine := { t.engine with results := [0x04#32] } }

/-- R118, R30, R111 (the host's write as one action is the model's, log entries 7 and 11, and the bytes without a
value are log entries 3 and 22): between commands the host changes the byte it names and nothing else. A byte in the
destination range of a command that an engine has faulted on has no value, before the write and after it, and of it
nothing is said. -/
def Obligations.HostWriteChangesOneByte : Prop :=
  ∀ (s : State) (addr : Word) (v : Byte) (rest : List HostAction),
    s.inputs = .write addr v :: rest → s.mem.wf →
    ∃ t : State, step s = .next t ∧ (holdsValue s addr.toNat → t.mem.read addr.toNat = v) ∧
      (∀ a : Nat, a ≠ addr.toNat → holdsValue s a → t.mem.read a = s.mem.read a) ∧
      t.before = s.before ∧ t.engine = s.engine ∧ t.after = s.after ∧ t.admitted = s.admitted ∧
      t.inputs = rest ∧ ((∀ e ∈ s.engines, e.faulted = none) → t.draws = s.draws)

/-- R28, R5 (the platform as data is log entries 5 and 6, and the host's list of pending actions, empty at reset, is
the model's choice of log entry 7): after reset every engine has `READY` = 0, no result word and no fault, and there
is at least one engine; the engines are as many as the platform says. -/
def Obligations.ResetLeavesEnginesIdle : Prop :=
  ∀ p : Platform,
    (∀ e ∈ (State.boot p).engines, e.ready = false ∧ e.results = [] ∧ e.faulted = none) ∧
    (State.boot p).engines.length = p.otherEngines + 1 ∧ (State.boot p).admitted = p.admitted ∧
    (State.boot p).inputs = []

/-! ## INIT (40_state_init.md) -/

/-- R65, R104: a key size other than 32 is WRONG_KEY_SIZE (0x01), whatever the nonce size, the addresses and the
admission are: `READY` cleared, no memory access, one result word. -/
def Obligations.WrongKeySizeFailsFirst : Prop :=
  ∀ (klen nlen kaddr naddr ctr : Word) (s : State), klen ≠ 32#32 →
    ∃ t : State, exec (.init klen nlen kaddr naddr ctr) s = .next t ∧ t.engine.ready = false ∧
      t.engine.results = s.engine.results ++ [0x01#32] ∧ t.mem = s.mem ∧ t.before = s.before ∧ t.after = s.after ∧
      t.admitted = s.admitted ∧ t.inputs = s.inputs

/-- R66, R105: with a 32-byte key, a nonce size other than 8 and 12 is WRONG_NONCE_SIZE (0x02), whatever the addresses
and the admission are. -/
def Obligations.WrongNonceSizeFails : Prop :=
  ∀ (nlen kaddr naddr ctr : Word) (s : State), nlen ≠ 8#32 → nlen ≠ 12#32 →
    ∃ t : State, exec (.init 32#32 nlen kaddr naddr ctr) s = .next t ∧ t.engine.ready = false ∧
      t.engine.results = s.engine.results ++ [0x02#32] ∧ t.mem = s.mem ∧ t.before = s.before ∧ t.after = s.after ∧
      t.admitted = s.admitted ∧ t.inputs = s.inputs

/-- R68, R69, R74: an INIT with an 8-byte nonce builds `S[4..15]` in the reference layout from host memory, whatever CTR
is, and responds OK. -/
def Obligations.InitBuildsReferenceLayout : Prop :=
  ∀ (kaddr naddr ctr : Word) (s : State), InitDuties s kaddr naddr 8#32 →
    ∃ t : State, exec (.init 32#32 8#32 kaddr naddr ctr) s = .next t ∧
      t.engine.S.toList.drop 4 =
        (List.range 8).map (fun i => le32At s.mem (kaddr.toNat + 4 * i)) ++
          [0#32, 0#32, le32At s.mem naddr.toNat, le32At s.mem (naddr.toNat + 4)] ∧
      t.engine.ready = true ∧ t.engine.layout = .ref ∧ t.engine.results = s.engine.results ++ [0x00#32] ∧
      t.mem = s.mem ∧ t.before = s.before ∧ t.after = s.after ∧ t.admitted = s.admitted ∧ t.inputs = s.inputs ∧
      t.draws = s.draws

/-- R68, R70: an INIT with a 12-byte nonce builds `S[4..15]` in the IETF layout from host memory and CTR, and responds
OK. -/
def Obligations.InitBuildsIetfLayout : Prop :=
  ∀ (kaddr naddr ctr : Word) (s : State), InitDuties s kaddr naddr 12#32 →
    ∃ t : State, exec (.init 32#32 12#32 kaddr naddr ctr) s = .next t ∧
      t.engine.S.toList.drop 4 =
        (List.range 8).map (fun i => le32At s.mem (kaddr.toNat + 4 * i)) ++
          [ctr, le32At s.mem naddr.toNat, le32At s.mem (naddr.toNat + 4), le32At s.mem (naddr.toNat + 8)] ∧
      t.engine.ready = true ∧ t.engine.layout = .ietf ∧ t.engine.results = s.engine.results ++ [0x00#32] ∧
      t.mem = s.mem ∧ t.before = s.before ∧ t.after = s.after ∧ t.admitted = s.admitted ∧ t.inputs = s.inputs ∧
      t.draws = s.draws

/-- R15, R67: a successful INIT sets `S[0..3]` to the ASCII codes of "expand 32-byte k", four to a word, least
significant byte first. The spec marks the numeric values as general knowledge (G1); log entry 15. -/
def Obligations.InitSetsSigmaConstants : Prop :=
  ∀ (nlen kaddr naddr ctr : Word) (s : State), nlen = 8#32 ∨ nlen = 12#32 → InitDuties s kaddr naddr nlen →
    ∃ t : State, exec (.init 32#32 nlen kaddr naddr ctr) s = .next t ∧
      t.engine.S.toList.take 4 =
        [le32 0x65#8 0x78#8 0x70#8 0x61#8, le32 0x6e#8 0x64#8 0x20#8 0x33#8,
          le32 0x32#8 0x2d#8 0x62#8 0x79#8, le32 0x74#8 0x65#8 0x20#8 0x6b#8]

/-- R71: an INIT of valid sizes whose bytes are admitted succeeds: it sets `READY`, sets `LAYOUT` by the nonce size and
responds OK. -/
def Obligations.InitOfValidSizesSucceeds : Prop :=
  ∀ (nlen kaddr naddr ctr : Word) (s : State), nlen = 8#32 ∨ nlen = 12#32 → InitDuties s kaddr naddr nlen →
    ∃ t : State, exec (.init 32#32 nlen kaddr naddr ctr) s = .next t ∧
      t.engine.ready = true ∧ t.engine.layout = (if nlen = 8#32 then .ref else .ietf) ∧
      t.engine.results = s.engine.results ++ [0x00#32]

/-- R33, R32, R109, R112: an INIT of valid sizes whose key or nonce range passes 2^32, or one of whose bytes is not
admitted for reading, is BufferFault, recorded with the command. -/
def Obligations.InitBadRangeFaults : Prop :=
  ∀ (nlen kaddr naddr ctr : Word) (s : State), nlen = 8#32 ∨ nlen = 12#32 →
    (2 ^ 32 < kaddr.toNat + 32 ∨ 2 ^ 32 < naddr.toNat + nlen.toNat ∨
      (∃ i < 32, s.admits (kaddr.toNat + i) .read = false) ∨
      ∃ i < nlen.toNat, s.admits (naddr.toNat + i) .read = false) →
    exec (.init 32#32 nlen kaddr naddr ctr) s = .fault (.bufferFault (.init 32#32 nlen kaddr naddr ctr))

/-- R73, R64, R72: what the engine held before an INIT has no effect on it. An INIT of valid sizes has the same
outcome on two machines that differ only in the driven engine's `S`, `READY` and `LAYOUT`; one that fails a size check
completes on both with `READY` cleared, the same result words and the same memory (of `S` and `LAYOUT`, which R72
leaves without a value, nothing is said). -/
def Obligations.InitForgetsOldInstance : Prop :=
  ∀ (klen nlen kaddr naddr ctr : Word) (s s' : State) (S : Words16) (ready : Bool) (layout : Layout),
    s' = { s with engine := { s.engine with S := S, ready := ready, layout := layout } } →
    (klen = 32#32 ∧ (nlen = 8#32 ∨ nlen = 12#32) →
      exec (.init klen nlen kaddr naddr ctr) s' = exec (.init klen nlen kaddr naddr ctr) s) ∧
    (klen ≠ 32#32 ∨ (nlen ≠ 8#32 ∧ nlen ≠ 12#32) →
      ∃ t t' : State, exec (.init klen nlen kaddr naddr ctr) s = .next t ∧
        exec (.init klen nlen kaddr naddr ctr) s' = .next t' ∧
        t.engine.ready = false ∧ t'.engine.ready = false ∧ t.engine.results = t'.engine.results ∧ t.mem = t'.mem)

/-- R72, R107: after an INIT that fails a size check, ENCRYPT and DECRYPT return NOT_CONSTRUCTED (0x04). -/
def Obligations.FailedInitDiscardsInstance : Prop :=
  ∀ (klen nlen kaddr naddr ctr : Word) (s : State), klen ≠ 32#32 ∨ (nlen ≠ 8#32 ∧ nlen ≠ 12#32) →
    ∃ t : State, exec (.init klen nlen kaddr naddr ctr) s = .next t ∧
      ∀ daddr saddr len : Word,
        exec (.encrypt daddr saddr len) t =
            .next { t with engine := { t.engine with results := t.engine.results ++ [0x04#32] } } ∧
        exec (.decrypt daddr saddr len) t =
            .next { t with engine := { t.engine with results := t.engine.results ++ [0x04#32] } }

/-! ## The block function and the counter (41_block_function.md, 42_counter_advance.md) -/

/-- R75: the examples and corner cases of the quarter-round. -/
def Obligations.QuarterRoundExamples : Prop :=
  quarterRound 0#32 0#32 0#32 0#32 = (0#32, 0#32, 0#32, 0#32) ∧
  quarterRound 0xffffffff#32 0xffffffff#32 0xffffffff#32 0xffffffff#32 =
    (0xf0000ffd#32, 0x88790878#32, 0x0110fdef#32, 0x010ffdf0#32) ∧
  quarterRound 0x11111111#32 0x01020304#32 0x9b8d6f43#32 0x01234567#32 =
    (0xea2a92f4#32, 0xcb1cf8ce#32, 0x4581472e#32, 0x5881c4bb#32)

/-- R76: on four distinct words of the working array, QRX writes their quarter-round and no other word. -/
def Obligations.QrxWritesFourWords : Prop :=
  ∀ (i j k l : Fin 16) (X : Words16), [i, j, k, l].Nodup →
    ((qrx i j k l X)[i], (qrx i j k l X)[j], (qrx i j k l X)[k], (qrx i j k l X)[l]) = quarterRound X[i] X[j] X[k] X[l] ∧
    ∀ m : Fin 16, m ∉ [i, j, k, l] → (qrx i j k l X)[m] = X[m]

/-- R77, R78, and R81, which the spec marks as its own inference: the four groups of a round may be applied in any
order, or all at once on the words the round started from, with the same result. -/
def Obligations.RoundLanesAreIndependent : Prop :=
  ∀ (X : Words16) (gs : List (Fin 16 × Fin 16 × Fin 16 × Fin 16)),
    (gs.Perm [(0, 4, 8, 12), (1, 5, 9, 13), (2, 6, 10, 14), (3, 7, 11, 15)] →
      gs.foldl (fun Y g => qrx g.1 g.2.1 g.2.2.1 g.2.2.2 Y) X = columnRound X ∧
      ∀ g ∈ gs, ((columnRound X)[g.1], (columnRound X)[g.2.1], (columnRound X)[g.2.2.1], (columnRound X)[g.2.2.2]) =
        quarterRound X[g.1] X[g.2.1] X[g.2.2.1] X[g.2.2.2]) ∧
    (gs.Perm [(0, 5, 10, 15), (1, 6, 11, 12), (2, 7, 8, 13), (3, 4, 9, 14)] →
      gs.foldl (fun Y g => qrx g.1 g.2.1 g.2.2.1 g.2.2.2 Y) X = diagonalRound X ∧
      ∀ g ∈ gs,
        ((diagonalRound X)[g.1], (diagonalRound X)[g.2.1], (diagonalRound X)[g.2.2.1], (diagonalRound X)[g.2.2.2]) =
          quarterRound X[g.1] X[g.2.1] X[g.2.2.1] X[g.2.2.2])

/-- R79, R80, R82, R83: a double round is the column round and then the diagonal round, which do not commute in
general; the rounds are ten double rounds; and byte `4i + j` of the 64-byte block is bits `8j+7 : 8j` of word `i`
after the rounds plus word `i` of `S`. -/
def Obligations.BlockBytesAreFedForwardWords : Prop :=
  (∀ X : Words16, doubleRound X = diagonalRound (columnRound X)) ∧
  (∃ X : Words16, columnRound (diagonalRound X) ≠ diagonalRound (columnRound X)) ∧
  (∀ X : Words16, rounds20 X = (fun Y => diagonalRound (columnRound Y))^[10] X) ∧
  ∀ S : Words16, (blockOf S).length = 64 ∧
    ∀ (i : Fin 16) (j : Fin 4),
      (blockOf S)[4 * i.val + j.val]? =
        some ((((fun Y => diagonalRound (columnRound Y))^[10] S)[i] + S[i]).extractLsb' (8 * j.val) 8)

/-- R87: ADVANCE adds 1 to `S[12]`, carries into `S[13]` exactly where `S[12]` was 0xffffffff, and writes no other
word. -/
def Obligations.AdvanceWritesCounterWords : Prop :=
  ∀ S : Words16,
    (advance S)[12] = S[12] + 1#32 ∧
    (S[12] = 0xffffffff#32 → (advance S)[12] = 0#32 ∧ (advance S)[13] = S[13] + 1#32) ∧
    (S[12] ≠ 0xffffffff#32 → (advance S)[13] = S[13]) ∧
    ∀ m : Fin 16, m ≠ 12 → m ≠ 13 → (advance S)[m] = S[m]

/-- R87, and R88, which the spec marks as its own inference from it: read as `S[13] ‖ S[12]`, the counter goes up by 1
modulo 2^64 at each ADVANCE, so by `q` after `q` of them, and a reference-layout INIT starts it at 0. -/
def Obligations.ReferenceCounterCounts : Prop :=
  (∀ S : Words16, counter64 (advance S) = counter64 S + 1#64) ∧
  (∀ (q : Nat) (S : Words16), counter64 (advances q S) = counter64 S + BitVec.ofNat 64 q) ∧
  (∀ S : Words16, counter64 (advances (2 ^ 64) S) = counter64 S) ∧
  ∀ (kaddr naddr ctr : Word) (s t : State), exec (.init 32#32 8#32 kaddr naddr ctr) s = .next t →
    counter64 t.engine.S = 0#64

/-- R126, which the spec marks as its own inference: after 2^64 blocks the whole state is the one it was, so the
keystream repeats. -/
def Obligations.KeystreamRepeatsAfterFullWrap : Prop :=
  ∀ S : Words16, advances (2 ^ 64) S = S ∧ ∀ i : Nat, keystreamByte S (2 ^ 70 + i) = keystreamByte S i

/-- R125: with `S[12]` = CTR at the start, the first nonce word `S[13]` is intact for every block up to number
2^32 - CTR, and the ADVANCE after that block wraps `S[12]` to 0 and adds 1 to `S[13]`. -/
def Obligations.IetfBlockBudget : Prop :=
  ∀ (S : Words16) (q : Nat),
    (q < 2 ^ 32 - S[12].toNat → (advances q S)[13] = S[13]) ∧
    (advances (2 ^ 32 - S[12].toNat) S)[12] = 0#32 ∧
    (advances (2 ^ 32 - S[12].toNat) S)[13] = S[13] + 1#32

/-! ## ENCRYPT and DECRYPT (43_stream_xor.md) -/

/-- R107: with `READY` = 0 both commands return NOT_CONSTRUCTED (0x04), for every operand, LEN = 0 among them, and
change nothing else. -/
def Obligations.NotConstructedChangesNothing : Prop :=
  ∀ (daddr saddr len : Word) (s : State), s.engine.ready = false →
    exec (.encrypt daddr saddr len) s =
        .next { s with engine := { s.engine with results := s.engine.results ++ [0x04#32] } } ∧
    exec (.decrypt daddr saddr len) s =
        .next { s with engine := { s.engine with results := s.engine.results ++ [0x04#32] } }

/-- R96: with `READY` = 1 and LEN = 0 both commands respond OK and change nothing else, whatever the addresses are. -/
def Obligations.ZeroLengthChangesNothing : Prop :=
  ∀ (daddr saddr : Word) (s : State), s.engine.ready = true →
    exec (.encrypt daddr saddr 0#32) s =
        .next { s with engine := { s.engine with results := s.engine.results ++ [0x00#32] } } ∧
    exec (.decrypt daddr saddr 0#32) s =
        .next { s with engine := { s.engine with results := s.engine.results ++ [0x00#32] } }

/-- R93 and R98 in closed form, which the spec infers from them in R94, R95 and R101. A constructed engine whose
command meets R123 (ranges inside the address space, no partial overlap, every byte admitted; in place is allowed)
completes with `XorResult`. -/
def Obligations.StreamXorClosedForm : Prop :=
  ∀ (daddr saddr len : Word) (s : State), s.engine.ready = true → s.mem.wf → XorDuties s daddr saddr len →
    (∃ t : State, exec (.encrypt daddr saddr len) s = .next t ∧ XorResult daddr saddr len s t) ∧
    ∃ t : State, exec (.decrypt daddr saddr len) s = .next t ∧ XorResult daddr saddr len s t

/-- R42 and R93, and R101, which the spec infers from them: in place, each byte becomes the old byte XORed with its
keystream byte, and no other byte changes. -/
def Obligations.InPlaceXor : Prop :=
  ∀ (addr len : Word) (s : State), s.engine.ready = true → s.mem.wf → addr.toNat + len.toNat ≤ 2 ^ 32 →
    rangeAdmitted s addr.toNat len.toNat .read → rangeAdmitted s addr.toNat len.toNat .write →
    ∃ t u : State, exec (.encrypt addr addr len) s = .next t ∧ exec (.decrypt addr addr len) s = .next u ∧ t.mem = u.mem ∧
      ∀ a : Nat, t.mem.read a =
        if addr.toNat ≤ a ∧ a < addr.toNat + len.toNat then
          s.mem.read a ^^^ keystreamByte s.engine.S (a - addr.toNat)
        else s.mem.read a

/-- R87, R89, R90, R93, R98, counted as in R95, which the spec infers: under the IETF layout a command runs through a
wrap of `S[12]`: `S[12]` goes on modulo 2^32, each wrap adds 1 to the nonce word `S[13]`, `S[14]` and `S[15]` stay,
and so do `READY` and `LAYOUT`. -/
def Obligations.IetfCarryChangesNonceWord : Prop :=
  ∀ (daddr saddr len : Word) (s : State), s.engine.ready = true → s.engine.layout = .ietf → XorDuties s daddr saddr len →
    ∃ t u : State, exec (.encrypt daddr saddr len) s = .next t ∧ exec (.decrypt daddr saddr len) s = .next u ∧
      t.engine = u.engine ∧
      t.engine.S[12] = s.engine.S[12] + BitVec.ofNat 32 ((len.toNat + 63) / 64) ∧
      t.engine.S[13] = s.engine.S[13] + BitVec.ofNat 32 ((s.engine.S[12].toNat + (len.toNat + 63) / 64) / 2 ^ 32) ∧
      t.engine.S[14] = s.engine.S[14] ∧ t.engine.S[15] = s.engine.S[15] ∧
      t.engine.ready = true ∧ t.engine.layout = .ietf

/-- R33, R109, R112: on a constructed engine a non-empty range that passes 2^32 is BufferFault, recorded with the
command, before any overlap is looked at. -/
def Obligations.RangePastTopFaults : Prop :=
  ∀ (daddr saddr len : Word) (s : State), s.engine.ready = true → 0 < len.toNat →
    (2 ^ 32 < saddr.toNat + len.toNat ∨ 2 ^ 32 < daddr.toNat + len.toNat) →
    exec (.encrypt daddr saddr len) s = .fault (.bufferFault (.encrypt daddr saddr len)) ∧
    exec (.decrypt daddr saddr len) s = .fault (.bufferFault (.decrypt daddr saddr len))

/-- R43, R110, R112: on a constructed engine ranges inside the address space that intersect at different addresses are
OverlapUnmodelled, recorded with the command, whatever is admitted. -/
def Obligations.PartialOverlapFaults : Prop :=
  ∀ (daddr saddr len : Word) (s : State), s.engine.ready = true → 0 < len.toNat →
    saddr.toNat + len.toNat ≤ 2 ^ 32 → daddr.toNat + len.toNat ≤ 2 ^ 32 → saddr ≠ daddr →
    (∃ a : Nat, saddr.toNat ≤ a ∧ a < saddr.toNat + len.toNat ∧ daddr.toNat ≤ a ∧ a < daddr.toNat + len.toNat) →
    exec (.encrypt daddr saddr len) s = .fault (.overlapUnmodelled (.encrypt daddr saddr len)) ∧
    exec (.decrypt daddr saddr len) s = .fault (.overlapUnmodelled (.decrypt daddr saddr len))

/-- R32, R109, R112: on a constructed engine, with ranges inside the address space that are equal or disjoint, one
source byte not admitted for reading or one destination byte not admitted for writing is BufferFault. -/
def Obligations.UnadmittedByteFaults : Prop :=
  ∀ (daddr saddr len : Word) (s : State) (i : Nat), s.engine.ready = true → i < len.toNat →
    saddr.toNat + len.toNat ≤ 2 ^ 32 → daddr.toNat + len.toNat ≤ 2 ^ 32 →
    (saddr = daddr ∨ saddr.toNat + len.toNat ≤ daddr.toNat ∨ daddr.toNat + len.toNat ≤ saddr.toNat) →
    (s.admits (saddr.toNat + i) .read = false ∨ s.admits (daddr.toNat + i) .write = false) →
    exec (.encrypt daddr saddr len) s = .fault (.bufferFault (.encrypt daddr saddr len)) ∧
    exec (.decrypt daddr saddr len) s = .fault (.bufferFault (.decrypt daddr saddr len))

/-- R98: DECRYPT, with header 0x00000003, does what ENCRYPT does: the same next states, and the same faults, each
recorded with its own command. -/
def Obligations.DecryptIsEncrypt : Prop :=
  ∀ (daddr saddr len : Word) (s : State),
    decode ⟨0x00000003#32, daddr, saddr, len⟩ = .ok (.decrypt daddr saddr len) ∧
    (∀ t : State, exec (.decrypt daddr saddr len) s = .next t ↔ exec (.encrypt daddr saddr len) s = .next t) ∧
    (exec (.decrypt daddr saddr len) s = .fault (.bufferFault (.decrypt daddr saddr len)) ↔
      exec (.encrypt daddr saddr len) s = .fault (.bufferFault (.encrypt daddr saddr len))) ∧
    (exec (.decrypt daddr saddr len) s = .fault (.overlapUnmodelled (.decrypt daddr saddr len)) ↔
      exec (.encrypt daddr saddr len) s = .fault (.overlapUnmodelled (.encrypt daddr saddr len)))

/-- R97, R23, R99: a command that ends inside a block discards the rest of it. Whichever of ENCRYPT and DECRYPT comes
first and whichever follows, byte `i` of the second takes the keystream from the block after the last one the first
generated, not from where the first stopped. -/
def Obligations.NextCommandStartsNextBlock : Prop :=
  ∀ (daddr saddr len daddr2 saddr2 len2 : Word) (first second : Instr) (s : State),
    (first = .encrypt daddr saddr len ∨ first = .decrypt daddr saddr len) →
    (second = .encrypt daddr2 saddr2 len2 ∨ second = .decrypt daddr2 saddr2 len2) →
    s.engine.ready = true → s.mem.wf → XorDuties s daddr saddr len → XorDuties s daddr2 saddr2 len2 →
    ∃ t u : State, exec first s = .next t ∧ exec second t = .next u ∧
      ∀ i < len2.toNat, u.mem.read (daddr2.toNat + i) =
        t.mem.read (saddr2.toNat + i) ^^^ keystreamByte s.engine.S (64 * ((len.toNat + 63) / 64) + i)

/-- R130, which the spec infers from R93 and R97: one message split after a whole number of blocks encrypts as it does
in one command: the same memory and the same cipher state. -/
def Obligations.SplitAtBlockBoundary : Prop :=
  ∀ (daddr saddr first second : Word) (s : State), s.engine.ready = true → s.mem.wf →
    first.toNat % 64 = 0 → first.toNat + second.toNat < 2 ^ 32 → XorDuties s daddr saddr (first + second) →
    ∃ t u v : State,
      exec (.encrypt daddr saddr (first + second)) s = .next v ∧
      exec (.encrypt daddr saddr first) s = .next t ∧
      exec (.encrypt (daddr + first) (saddr + first) second) t = .next u ∧
      u.mem = v.mem ∧ u.engine.S = v.engine.S

/-- R102, which the spec infers from R94 and R98, with R73: INIT, ENCRYPT, INIT with the same key, nonce and counter,
DECRYPT of the ciphertext gives the plaintext back, where the key and nonce bytes lie outside the ciphertext. -/
def Obligations.EncryptThenDecryptRoundTrip : Prop :=
  ∀ (nlen kaddr naddr ctr daddr saddr back len : Word) (s : State),
    nlen = 8#32 ∨ nlen = 12#32 → s.mem.wf → InitDuties s kaddr naddr nlen →
    XorDuties s daddr saddr len → XorDuties s back daddr len →
    (∀ i < 32, kaddr.toNat + i < daddr.toNat ∨ daddr.toNat + len.toNat ≤ kaddr.toNat + i) →
    (∀ i < nlen.toNat, naddr.toNat + i < daddr.toNat ∨ daddr.toNat + len.toNat ≤ naddr.toNat + i) →
    ∃ s1 s2 s3 s4 : State,
      exec (.init 32#32 nlen kaddr naddr ctr) s = .next s1 ∧ exec (.encrypt daddr saddr len) s1 = .next s2 ∧
      exec (.init 32#32 nlen kaddr naddr ctr) s2 = .next s3 ∧ exec (.decrypt back daddr len) s3 = .next s4 ∧
      s4.engine.results = s.engine.results ++ [0x00#32, 0x00#32, 0x00#32, 0x00#32] ∧
      ∀ i < len.toNat, s4.mem.read (back.toNat + i) = s.mem.read (saddr.toNat + i)

/-- R85 and R93, and R102 (determinism), which the spec infers: what a command writes depends on the cipher state and
the source bytes alone: two machines alike in these, and whatever else differs, write the same bytes and leave the
same cipher state. -/
def Obligations.SameStateSameBytes : Prop :=
  ∀ (daddr saddr len : Word) (s s' : State),
    s.engine.ready = true → s'.engine.ready = true → s.engine.S = s'.engine.S → s.mem.wf → s'.mem.wf →
    XorDuties s daddr saddr len → XorDuties s' daddr saddr len →
    (∀ i < len.toNat, s.mem.read (saddr.toNat + i) = s'.mem.read (saddr.toNat + i)) →
    ∃ t t' : State, exec (.encrypt daddr saddr len) s = .next t ∧ exec (.encrypt daddr saddr len) s' = .next t' ∧
      t.engine.S = t'.engine.S ∧ ∀ i < len.toNat, t.mem.read (daddr.toNat + i) = t'.mem.read (daddr.toNat + i)

/-! ## The whole machine -/

/-- R14, R87, and R31 and R100, which the spec infers (frame of INIT, ENCRYPT and DECRYPT): a command that completes
leaves the other engines, the platform and the host's actions as they were and appends one of the result words. INIT
writes no memory. ENCRYPT and DECRYPT write no byte outside `[DADDR, DADDR+LEN)`, and of the engine no word but
`S[12]` and `S[13]`. -/
def Obligations.CommandFrame : Prop :=
  ∀ (i : Instr) (s t : State), exec i s = .next t →
    t.before = s.before ∧ t.after = s.after ∧ t.admitted = s.admitted ∧ t.inputs = s.inputs ∧
    t.engine.faulted = s.engine.faulted ∧
    (∃ c : ResultCode, t.engine.results = s.engine.results ++ [resultWord c]) ∧
    match i with
    | .init _ _ _ _ _ => t.mem = s.mem
    | .encrypt daddr _ len | .decrypt daddr _ len =>
      (∀ a : Nat, a < daddr.toNat ∨ daddr.toNat + len.toNat ≤ a → t.mem.read a = s.mem.read a) ∧
      (∀ m : Fin 16, m ≠ 12 → m ≠ 13 → t.engine.S[m] = s.engine.S[m]) ∧
      t.engine.ready = s.engine.ready ∧ t.engine.layout = s.engine.layout ∧ t.draws = s.draws

/-- R103, R108, R111: every command ends in a next state with one result word, in BufferFault or in OverlapUnmodelled,
the fault recorded with the command itself; OverlapUnmodelled is not raised by INIT; nothing is refused. -/
def Obligations.CommandsCompleteOrFault : Prop :=
  ∀ (i : Instr) (s : State),
    (∃ t : State, exec i s = .next t ∧ ∃ c : ResultCode, t.engine.results = s.engine.results ++ [resultWord c]) ∨
    exec i s = .fault (.bufferFault i) ∨
    (exec i s = .fault (.overlapUnmodelled i) ∧
      ∀ klen nlen kaddr naddr ctr : Word, i ≠ .init klen nlen kaddr naddr ctr)

/-- R20, R71, R122: only a successful INIT, of valid sizes and answered OK, sets `READY`. -/
def Obligations.ReadyOnlyByInit : Prop :=
  ∀ (i : Instr) (s t : State), exec i s = .next t → s.engine.ready = false → t.engine.ready = true →
    ∃ nlen kaddr naddr ctr : Word, i = .init 32#32 nlen kaddr naddr ctr ∧ (nlen = 8#32 ∨ nlen = 12#32) ∧
      t.engine.results = s.engine.results ++ [0x00#32]

/-- R27, R116: a step acts on the one engine the host's action names: the number of engines, every other engine and the
platform stay as they are, and the action is taken from the list. -/
def Obligations.StepTouchesOneEngine : Prop :=
  ∀ (s t : State) (a : HostAction) (rest : List HostAction), s.inputs = a :: rest → step s = .next t →
    t.engines.length = s.engines.length ∧ t.admitted = s.admitted ∧ t.inputs = rest ∧
    ∀ j : Nat, targetEngine a ≠ some j → t.engines[j]? = s.engines[j]?

/-- R14, R90, and R22, which the spec infers from R64, R87 and R92: over any step that is neither an INIT given to
engine `j` nor its reset and in which it does not fault, that engine keeps `READY`, `LAYOUT` and every word of `S` but
`S[12]` and `S[13]`; and `S` is advanced once per keystream block, `blockCount len` times where the step gives the
engine, running and constructed, an ENCRYPT or DECRYPT of length `len`, and not at all in every other step. -/
def Obligations.OnlyAdvanceChangesInstance : Prop :=
  ∀ (s t : State) (j : Nat) (e e' : Engine), step s = .next t → s.engines[j]? = some e → t.engines[j]? = some e' →
    e'.faulted = e.faulted →
    (∀ (w : Words) (klen nlen kaddr naddr ctr : Word), s.inputs.head? = some (.issue j w) →
      decode w ≠ .ok (.init klen nlen kaddr naddr ctr)) →
    s.inputs.head? ≠ some (.reset j) →
    e'.ready = e.ready ∧ e'.layout = e.layout ∧ (∀ m : Fin 16, m ≠ 12 → m ≠ 13 → e'.S[m] = e.S[m]) ∧
      e'.S = advances ((s.inputs.head?.map (blocksFor j e)).getD 0) e.S

/-- R48, R59, R60, R111, on the list of delivered words that log entry 8 chose: a command that completes delivers
exactly one result word on its engine's port, after those delivered before it, and the word is one of 0 to 4; where
the command ends in a model fault, or the engine had faulted before, none is delivered. -/
def Obligations.OneResultWordPerCommand : Prop :=
  ∀ (s t : State) (k : Nat) (w : Words) (rest : List HostAction), s.inputs = .issue k w :: rest → step s = .next t →
    ∃ e e' : Engine, s.engines[k]? = some e ∧ t.engines[k]? = some e' ∧
      ((e.faulted = none ∧ e'.faulted = none ∧ ∃ r : Word, e'.results = e.results ++ [r] ∧ r.toNat ≤ 4) ∨
        (e'.faulted ≠ none ∧ e'.results = e.results))

/-- R15, R60, the part of R22 that one state shows, and the model's own canonical form of memory (log entry 4): every
step keeps the invariant: memory in its canonical form, the constant words of
every constructed engine, and only known result words delivered. -/
def Obligations.StepKeepsInvariant : Prop := ∀ s t : State, Inv s → step s = .next t → Inv t

/-- R28 (memory with nothing listed is log entry 4): the machine right after reset, on any platform, meets the
invariant. -/
def Obligations.ResetMeetsInvariant : Prop := (∀ p : Platform, Inv (State.boot p)) ∧ Inv State.reset

/-! ## The faulted state (60_exceptions.md) -/

/-- R111 (what has no value is not spoken of; log entries 3, 9 and 22): a command that ends in a model fault ends the
run of its engine. The fault is recorded with its kind and the command, no result word is delivered, and the host's
action is taken; every other engine, the platform, and every byte of memory outside the command's destination range
that had a value stay as they were, so the machine goes on. -/
def Obligations.ModelFaultEndsOneEngine : Prop :=
  ∀ (s t : State) (k : Nat) (w : Words) (rest : List HostAction) (i : Instr) (f : Fault),
    s.inputs = .issue k w :: rest → s.pop.focus k = some t → t.engine.faulted = none → decode w = .ok i →
    exec i t = .fault f →
    (f = .bufferFault i ∨ f = .overlapUnmodelled i) ∧
    ∃ u : State, step s = .next u ∧ u.engine.faulted = some f ∧ u.engine.results = t.engine.results ∧ u.index = k ∧
      u.before = s.engines.take k ∧ u.after = s.engines.drop (k + 1) ∧ u.admitted = s.admitted ∧ u.inputs = rest ∧
      match i with
      | .init _ _ _ _ _ => ∀ a : Nat, holdsValue s a → u.mem.read a = s.mem.read a
      | .encrypt daddr _ len | .decrypt daddr _ len =>
        ∀ a : Nat, a < daddr.toNat ∨ daddr.toNat + len.toNat ≤ a → holdsValue s a → u.mem.read a = s.mem.read a

/-- R111, R120 (log entries 21 and 22): a faulted engine accepts no further command, legal or not: no result word, no
engine and no byte of memory that has a value changes. A reset does not clear the fault. -/
def Obligations.FaultedEngineAcceptsNothing : Prop :=
  ∀ (s : State) (k : Nat) (e : Engine) (f : Fault) (rest : List HostAction),
    s.engines[k]? = some e → e.faulted = some f →
    (∀ w : Words, s.inputs = .issue k w :: rest →
      ∃ t : State, step s = .next t ∧ t.engines = s.engines ∧ (∀ a : Nat, holdsValue s a → t.mem.read a = s.mem.read a) ∧
        t.admitted = s.admitted ∧ t.inputs = rest) ∧
    (s.inputs = .reset k :: rest →
      ∃ t : State, step s = .next t ∧ t.engine.faulted = some f ∧ t.engine.results = [] ∧ t.index = k ∧
        t.before = s.engines.take k ∧ t.after = s.engines.drop (k + 1) ∧
        (∀ a : Nat, holdsValue s a → t.mem.read a = s.mem.read a) ∧ t.admitted = s.admitted ∧ t.inputs = rest)

/-- R111, R120: "it is never cleared in the model": over any step a faulted engine keeps its fault, with kind and
command. Its delivered words stay as they are, and a reset of that engine, which takes back its words (log entries 8
and 21), empties them. -/
def Obligations.FaultIsNeverCleared : Prop :=
  ∀ (s t : State) (j : Nat) (e : Engine) (f : Fault), step s = .next t → s.engines[j]? = some e → e.faulted = some f →
    ∃ e' : Engine, t.engines[j]? = some e' ∧ e'.faulted = some f ∧
      (s.inputs.head? ≠ some (.reset j) → e'.results = e.results) ∧
      (s.inputs.head? = some (.reset j) → e'.results = [])

/-- R123, R128, R129: a command whose duties the host met is a safe step: no engine takes a model fault. An INIT of
invalid sizes and a command on an engine that holds no instance have no duty. -/
def Obligations.DutifulCommandIsSafe : Prop :=
  ∀ (s : State) (k : Nat) (w : Words) (rest : List HostAction) (i : Instr) (e : Engine),
    s.inputs = .issue k w :: rest → s.engines[k]? = some e → decode w = .ok i →
    (match i with
      | .init klen nlen kaddr naddr _ => klen = 32#32 → nlen = 8#32 ∨ nlen = 12#32 → InitDuties s kaddr naddr nlen
      | .encrypt daddr saddr len | .decrypt daddr saddr len => e.ready = true → XorDuties s daddr saddr len) →
    safeStep s

/-- R111 (log entries 3 and 22): `loseFaulted` changes no byte but those without a value: it keeps every engine, the
platform, the host's actions and every byte that has a value, and where no engine has faulted it changes nothing. Of the
bytes without a value nothing is said here. -/
def Obligations.OnlyLostBytesAreRedrawn : Prop :=
  ∀ s : State,
    ((∀ e ∈ s.engines, e.faulted = none) → loseFaulted s = s) ∧
    ((loseFaulted s).before = s.before ∧ (loseFaulted s).engine = s.engine ∧ (loseFaulted s).after = s.after ∧
      (loseFaulted s).admitted = s.admitted ∧ (loseFaulted s).inputs = s.inputs) ∧
    ∀ a : Nat, holdsValue s a → (loseFaulted s).mem.read a = s.mem.read a

/-- R111, D27 (log entries 3 and 22): "From the fault on" the bytes of a faulted command's destination range have no
value. After any step, whoever writes to such a byte in it, the byte is a free value drawn in that step. -/
def Obligations.LostBytesNeverRegainValue : Prop :=
  ∀ s t : State, s.mem.wf → step s = .next t →
    (∀ a : Nat, ¬ holdsValue s a → ¬ holdsValue t a) ∧
    ∀ a : Nat, a < 2 ^ 32 → ¬ holdsValue t a →
      ∃ d : Nat, s.draws ≤ d ∧ d < t.draws ∧ t.mem.read a = Config.freeByte d a
end

