-- ==== Sys2Proof/Laws/State.lean ====
section
/-! SUPPORT. One lemma per field per update of the state, so that no proof unfolds a record update. -/

namespace Sys2Proof.Machine

@[simp] theorem construct_before (S : Words16) (l : Layout) (s : State) : (construct S l s).before = s.before := rfl
@[simp] theorem construct_engine_S (S : Words16) (l : Layout) (s : State) : (construct S l s).engine.S = S := rfl
@[simp] theorem construct_engine_ready (S : Words16) (l : Layout) (s : State) : (construct S l s).engine.ready = true := rfl
@[simp] theorem construct_engine_layout (S : Words16) (l : Layout) (s : State) : (construct S l s).engine.layout = l := rfl
@[simp] theorem construct_engine_results (S : Words16) (l : Layout) (s : State) : (construct S l s).engine.results = s.engine.results := rfl
@[simp] theorem construct_engine_faulted (S : Words16) (l : Layout) (s : State) : (construct S l s).engine.faulted = s.engine.faulted := rfl
@[simp] theorem construct_after (S : Words16) (l : Layout) (s : State) : (construct S l s).after = s.after := rfl
@[simp] theorem construct_mem (S : Words16) (l : Layout) (s : State) : (construct S l s).mem = s.mem := rfl
@[simp] theorem construct_admitted (S : Words16) (l : Layout) (s : State) : (construct S l s).admitted = s.admitted := rfl
@[simp] theorem construct_inputs (S : Words16) (l : Layout) (s : State) : (construct S l s).inputs = s.inputs := rfl
@[simp] theorem construct_draws (S : Words16) (l : Layout) (s : State) : (construct S l s).draws = s.draws := rfl

@[simp] theorem failConstruction_before (s : State) : (failConstruction s).before = s.before := rfl
@[simp] theorem failConstruction_engine_S (s : State) : (failConstruction s).engine.S = freeS s.draws := rfl
@[simp] theorem failConstruction_engine_ready (s : State) : (failConstruction s).engine.ready = false := rfl
@[simp] theorem failConstruction_engine_layout (s : State) : (failConstruction s).engine.layout = Config.freeLayout s.draws := rfl
@[simp] theorem failConstruction_engine_results (s : State) : (failConstruction s).engine.results = s.engine.results := rfl
@[simp] theorem failConstruction_engine_faulted (s : State) : (failConstruction s).engine.faulted = s.engine.faulted := rfl
@[simp] theorem failConstruction_after (s : State) : (failConstruction s).after = s.after := rfl
@[simp] theorem failConstruction_mem (s : State) : (failConstruction s).mem = s.mem := rfl
@[simp] theorem failConstruction_admitted (s : State) : (failConstruction s).admitted = s.admitted := rfl
@[simp] theorem failConstruction_inputs (s : State) : (failConstruction s).inputs = s.inputs := rfl
@[simp] theorem failConstruction_draws (s : State) : (failConstruction s).draws = s.draws + 1 := rfl

@[simp] theorem resetEngine_before (s : State) : (resetEngine s).before = s.before := rfl
@[simp] theorem resetEngine_engine_faulted (s : State) : (resetEngine s).engine.faulted = s.engine.faulted := by
  cases h : s.engine.faulted <;> simp [resetEngine, h, Engine.reset, Engine.faultedState]
@[simp] theorem resetEngine_engine_results (s : State) : (resetEngine s).engine.results = [] := by
  cases h : s.engine.faulted <;> simp [resetEngine, h, Engine.reset, Engine.faultedState]
theorem resetEngine_engine_ready {s : State} (h : s.engine.faulted = none) : (resetEngine s).engine.ready = false := by
  simp [resetEngine, h, Engine.reset]
@[simp] theorem resetEngine_after (s : State) : (resetEngine s).after = s.after := rfl
@[simp] theorem resetEngine_mem (s : State) : (resetEngine s).mem = s.mem := rfl
@[simp] theorem resetEngine_admitted (s : State) : (resetEngine s).admitted = s.admitted := rfl
@[simp] theorem resetEngine_inputs (s : State) : (resetEngine s).inputs = s.inputs := rfl
@[simp] theorem resetEngine_draws (s : State) : (resetEngine s).draws = s.draws + 1 := rfl

@[simp] theorem respond_before (c : ResultCode) (s : State) : (respond c s).before = s.before := rfl
@[simp] theorem respond_engine_S (c : ResultCode) (s : State) : (respond c s).engine.S = s.engine.S := rfl
@[simp] theorem respond_engine_ready (c : ResultCode) (s : State) : (respond c s).engine.ready = s.engine.ready := rfl
@[simp] theorem respond_engine_layout (c : ResultCode) (s : State) : (respond c s).engine.layout = s.engine.layout := rfl
@[simp] theorem respond_engine_results (c : ResultCode) (s : State) : (respond c s).engine.results = s.engine.results ++ [resultWord c] := rfl
@[simp] theorem respond_engine_faulted (c : ResultCode) (s : State) : (respond c s).engine.faulted = s.engine.faulted := rfl
@[simp] theorem respond_after (c : ResultCode) (s : State) : (respond c s).after = s.after := rfl
@[simp] theorem respond_mem (c : ResultCode) (s : State) : (respond c s).mem = s.mem := rfl
@[simp] theorem respond_admitted (c : ResultCode) (s : State) : (respond c s).admitted = s.admitted := rfl
@[simp] theorem respond_inputs (c : ResultCode) (s : State) : (respond c s).inputs = s.inputs := rfl
@[simp] theorem respond_draws (c : ResultCode) (s : State) : (respond c s).draws = s.draws := rfl

@[simp] theorem enterFaulted_before (f : Fault) (s : State) : (enterFaulted f s).before = s.before := rfl
@[simp] theorem enterFaulted_engine_S (f : Fault) (s : State) : (enterFaulted f s).engine.S = freeS s.draws := rfl
@[simp] theorem enterFaulted_engine_ready (f : Fault) (s : State) : (enterFaulted f s).engine.ready = Config.freeReady s.draws := rfl
@[simp] theorem enterFaulted_engine_layout (f : Fault) (s : State) : (enterFaulted f s).engine.layout = Config.freeLayout s.draws := rfl
@[simp] theorem enterFaulted_engine_results (f : Fault) (s : State) : (enterFaulted f s).engine.results = s.engine.results := rfl
@[simp] theorem enterFaulted_engine_faulted (f : Fault) (s : State) : (enterFaulted f s).engine.faulted = some f := rfl
@[simp] theorem enterFaulted_after (f : Fault) (s : State) : (enterFaulted f s).after = s.after := rfl
@[simp] theorem enterFaulted_mem (f : Fault) (s : State) : (enterFaulted f s).mem = s.mem := rfl
@[simp] theorem enterFaulted_admitted (f : Fault) (s : State) : (enterFaulted f s).admitted = s.admitted := rfl
@[simp] theorem enterFaulted_inputs (f : Fault) (s : State) : (enterFaulted f s).inputs = s.inputs := rfl
@[simp] theorem enterFaulted_draws (f : Fault) (s : State) : (enterFaulted f s).draws = s.draws + 1 := rfl

@[simp] theorem loseFaulted_before (s : State) : (loseFaulted s).before = s.before := by unfold loseFaulted; split <;> rfl
@[simp] theorem loseFaulted_engine (s : State) : (loseFaulted s).engine = s.engine := by unfold loseFaulted; split <;> rfl
@[simp] theorem loseFaulted_after (s : State) : (loseFaulted s).after = s.after := by unfold loseFaulted; split <;> rfl
@[simp] theorem loseFaulted_admitted (s : State) : (loseFaulted s).admitted = s.admitted := by unfold loseFaulted; split <;> rfl
@[simp] theorem loseFaulted_inputs (s : State) : (loseFaulted s).inputs = s.inputs := by unfold loseFaulted; split <;> rfl
@[simp] theorem loseFaulted_engines (s : State) : (loseFaulted s).engines = s.engines := by simp [State.engines]
@[simp] theorem loseFaulted_index (s : State) : (loseFaulted s).index = s.index := by simp [State.index]

@[simp] theorem advanceCounter_before (s : State) : (advanceCounter s).before = s.before := rfl
@[simp] theorem advanceCounter_engine_S (s : State) : (advanceCounter s).engine.S = advance s.engine.S := rfl
@[simp] theorem advanceCounter_engine_ready (s : State) : (advanceCounter s).engine.ready = s.engine.ready := rfl
@[simp] theorem advanceCounter_engine_layout (s : State) : (advanceCounter s).engine.layout = s.engine.layout := rfl
@[simp] theorem advanceCounter_engine_results (s : State) : (advanceCounter s).engine.results = s.engine.results := rfl
@[simp] theorem advanceCounter_engine_faulted (s : State) : (advanceCounter s).engine.faulted = s.engine.faulted := rfl
@[simp] theorem advanceCounter_after (s : State) : (advanceCounter s).after = s.after := rfl
@[simp] theorem advanceCounter_mem (s : State) : (advanceCounter s).mem = s.mem := rfl
@[simp] theorem advanceCounter_admitted (s : State) : (advanceCounter s).admitted = s.admitted := rfl
@[simp] theorem advanceCounter_inputs (s : State) : (advanceCounter s).inputs = s.inputs := rfl
@[simp] theorem advanceCounter_draws (s : State) : (advanceCounter s).draws = s.draws := rfl

@[simp] theorem hostWrite_before (a : Word) (v : Byte) (s : State) : (hostWrite a v s).before = s.before := rfl
@[simp] theorem hostWrite_engine_S (a : Word) (v : Byte) (s : State) : (hostWrite a v s).engine.S = s.engine.S := rfl
@[simp] theorem hostWrite_engine_ready (a : Word) (v : Byte) (s : State) : (hostWrite a v s).engine.ready = s.engine.ready := rfl
@[simp] theorem hostWrite_engine_layout (a : Word) (v : Byte) (s : State) : (hostWrite a v s).engine.layout = s.engine.layout := rfl
@[simp] theorem hostWrite_engine_results (a : Word) (v : Byte) (s : State) : (hostWrite a v s).engine.results = s.engine.results := rfl
@[simp] theorem hostWrite_engine_faulted (a : Word) (v : Byte) (s : State) : (hostWrite a v s).engine.faulted = s.engine.faulted := rfl
@[simp] theorem hostWrite_after (a : Word) (v : Byte) (s : State) : (hostWrite a v s).after = s.after := rfl
@[simp] theorem hostWrite_mem (a : Word) (v : Byte) (s : State) : (hostWrite a v s).mem = s.mem.write a.toNat v := rfl
@[simp] theorem hostWrite_admitted (a : Word) (v : Byte) (s : State) : (hostWrite a v s).admitted = s.admitted := rfl
@[simp] theorem hostWrite_inputs (a : Word) (v : Byte) (s : State) : (hostWrite a v s).inputs = s.inputs := rfl
@[simp] theorem hostWrite_draws (a : Word) (v : Byte) (s : State) : (hostWrite a v s).draws = s.draws := rfl

@[simp] theorem State.pop_before (s : State) : (s.pop).before = s.before := rfl
@[simp] theorem State.pop_engine_S (s : State) : (s.pop).engine.S = s.engine.S := rfl
@[simp] theorem State.pop_engine_ready (s : State) : (s.pop).engine.ready = s.engine.ready := rfl
@[simp] theorem State.pop_engine_layout (s : State) : (s.pop).engine.layout = s.engine.layout := rfl
@[simp] theorem State.pop_engine_results (s : State) : (s.pop).engine.results = s.engine.results := rfl
@[simp] theorem State.pop_engine_faulted (s : State) : (s.pop).engine.faulted = s.engine.faulted := rfl
@[simp] theorem State.pop_after (s : State) : (s.pop).after = s.after := rfl
@[simp] theorem State.pop_mem (s : State) : (s.pop).mem = s.mem := rfl
@[simp] theorem State.pop_admitted (s : State) : (s.pop).admitted = s.admitted := rfl
@[simp] theorem State.pop_inputs (s : State) : (s.pop).inputs = s.inputs.tail := rfl
@[simp] theorem State.pop_draws (s : State) : (s.pop).draws = s.draws := rfl

@[simp] theorem State.withFetchWord_before (s : State) (n w : Nat) : (s.withFetchWord n w).before = s.before := rfl
@[simp] theorem State.withFetchWord_engine_S (s : State) (n w : Nat) : (s.withFetchWord n w).engine.S = s.engine.S := rfl
@[simp] theorem State.withFetchWord_engine_ready (s : State) (n w : Nat) : (s.withFetchWord n w).engine.ready = s.engine.ready := rfl
@[simp] theorem State.withFetchWord_engine_layout (s : State) (n w : Nat) : (s.withFetchWord n w).engine.layout = s.engine.layout := rfl
@[simp] theorem State.withFetchWord_engine_results (s : State) (n w : Nat) : (s.withFetchWord n w).engine.results = s.engine.results := rfl
@[simp] theorem State.withFetchWord_engine_faulted (s : State) (n w : Nat) : (s.withFetchWord n w).engine.faulted = s.engine.faulted := rfl
@[simp] theorem State.withFetchWord_after (s : State) (n w : Nat) : (s.withFetchWord n w).after = s.after := rfl
@[simp] theorem State.withFetchWord_mem (s : State) (n w : Nat) : (s.withFetchWord n w).mem = s.mem := rfl
@[simp] theorem State.withFetchWord_admitted (s : State) (n w : Nat) : (s.withFetchWord n w).admitted = s.admitted := rfl
@[simp] theorem State.withFetchWord_inputs (s : State) (n w : Nat) : (s.withFetchWord n w).inputs = .issue s.index (wordsOfBits n w) :: s.inputs := rfl
@[simp] theorem State.withFetchWord_draws (s : State) (n w : Nat) : (s.withFetchWord n w).draws = s.draws := rfl

end Sys2Proof.Machine
end

