-- ==== Sys2Proof/Laws/Memory.lean ====
section
/-! SUPPORT. What the memory operations do: read after write, the canonical form and what it is for, the admission
check, and the byte accesses. -/

namespace Sys2Proof.Machine

/-! ## Host memory -/

@[simp] theorem Memory.read_nil (a : Nat) : Memory.read [] a = unlistedByte := rfl

theorem Memory.read_cons (b : Nat) (v : Byte) (rest : Memory) (a : Nat) :
    Memory.read ((b, v) :: rest) a = if a = b then v else Memory.read rest a := rfl

/-- A byte that is not listed reads as `unlistedByte`. -/
theorem Memory.read_of_not_listed {m : Memory} {a : Nat} (h : ∀ c ∈ m, c.1 ≠ a) : m.read a = unlistedByte := by
  induction m with
  | nil => rfl
  | cons c rest ih =>
    obtain ⟨b, v⟩ := c
    have hb : b ≠ a := h (b, v) (by simp)
    rw [Memory.read_cons, if_neg (Ne.symm hb)]
    exact ih fun c hc => h c (by simp [hc])

/-- A write leaves every other byte alone. -/
theorem Memory.read_write_of_ne {m : Memory} {a b : Nat} (v : Byte) (h : b ≠ a) :
    (m.write a v).read b = m.read b := by
  induction m with
  | nil =>
    simp only [Memory.write]
    split <;> simp [Memory.read_cons, h]
  | cons c rest ih =>
    obtain ⟨k, u⟩ := c
    simp only [Memory.write]
    split
    · split <;> simp [Memory.read_cons, h]
    · split
      · subst_vars
        split <;> simp [Memory.read_cons, h]
      · simp only [Memory.read_cons, ih]

/-- A canonical memory's tail is canonical. -/
theorem Memory.wf_tail {c : Host.Cell} {rest : Memory} (h : Memory.wf (c :: rest)) : Memory.wf rest :=
  ⟨h.1.of_cons, fun d hd => h.2 d (by simp [hd])⟩

/-- In a canonical memory the first address lies below all others. -/
theorem Memory.wf_head_lt {c : Host.Cell} {rest : Memory} (h : Memory.wf (c :: rest)) : ∀ d ∈ rest, c.1 < d.1 :=
  fun _ hd => List.rel_of_pairwise_cons h.1 hd

/-- A read gives the byte last written. -/
theorem Memory.read_write_same {m : Memory} (hm : m.wf) (a : Nat) (v : Byte) : (m.write a v).read a = v := by
  induction m with
  | nil =>
    simp only [Memory.write]
    split <;> simp_all [Memory.read_cons]
  | cons c rest ih =>
    obtain ⟨k, u⟩ := c
    have hlt : ∀ d ∈ rest, k < d.1 := Memory.wf_head_lt hm
    simp only [Memory.write]
    split
    · rename_i hak
      split
      · rename_i hv
        rw [hv]
        refine Memory.read_of_not_listed fun d hd => ?_
        rcases List.mem_cons.1 hd with rfl | hd
        · simp only; omega
        · have := hlt d hd; omega
      · simp [Memory.read_cons]
    · split
      · rename_i hak
        split
        · rename_i hv
          rw [hv]
          exact Memory.read_of_not_listed fun d hd => by have := hlt d hd; omega
        · simp [Memory.read_cons]
      · rename_i hak
        rw [Memory.read_cons, if_neg hak]
        exact ih (Memory.wf_tail hm)

theorem Memory.mem_write {m : Memory} {a : Nat} {v : Byte} {c : Host.Cell} (h : c ∈ m.write a v) :
    c ∈ m ∨ (c = (a, v) ∧ v ≠ unlistedByte) := by
  induction m with
  | nil =>
    simp only [Memory.write] at h
    split at h <;> simp_all
  | cons d rest ih =>
    obtain ⟨k, u⟩ := d
    simp only [Memory.write] at h
    split at h
    · split at h
      · exact .inl h
      · rcases List.mem_cons.1 h with h | h
        · exact .inr ⟨h, ‹_›⟩
        · exact .inl h
    · split at h
      · split at h
        · exact .inl (by simp [h])
        · rcases List.mem_cons.1 h with h | h
          · exact .inr ⟨h, ‹_›⟩
          · exact .inl (by simp [h])
      · rcases List.mem_cons.1 h with h | h
        · exact .inl (by simp [h])
        · exact (ih h).imp_left fun h => by simp [h]

/-- A write inside the address space keeps the canonical form. -/
theorem Memory.write_wf {m : Memory} (hm : m.wf) {a : Nat} (ha : a < addrSpace) (v : Byte) : (m.write a v).wf := by
  refine ⟨?_, fun c hc => ?_⟩
  · induction m with
    | nil =>
      simp only [Memory.write]
      split <;> simp
    | cons d rest ih =>
      obtain ⟨k, u⟩ := d
      have hlt : ∀ d ∈ rest, k < d.1 := Memory.wf_head_lt hm
      simp only [Memory.write]
      split
      · split
        · exact hm.1
        · refine List.pairwise_cons.2 ⟨fun d hd => ?_, hm.1⟩
          rcases List.mem_cons.1 hd with rfl | hd
          · simpa
          · have := hlt d hd; simp only; omega
      · split
        · split
          · exact (Memory.wf_tail hm).1
          · refine List.pairwise_cons.2 ⟨fun d hd => ?_, (Memory.wf_tail hm).1⟩
            have := hlt d hd; simp only; omega
        · refine List.pairwise_cons.2 ⟨fun d hd => ?_, ih (Memory.wf_tail hm)⟩
          rcases Memory.mem_write hd with hd | ⟨rfl, -⟩
          · exact hlt d hd
          · simp only; omega
  · rcases Memory.mem_write hc with hc | ⟨rfl, hv⟩
    · exact hm.2 c hc
    · exact ⟨ha, hv⟩

theorem Memory.wf_nil : Memory.wf [] := by simp [Memory.wf]

/-- The canonical form: memories that read alike are equal. -/
theorem Memory.ext_of_read {m n : Memory} (hm : m.wf) (hn : n.wf) (h : ∀ a, m.read a = n.read a) : m = n := by
  induction m generalizing n with
  | nil =>
    cases n with
    | nil => rfl
    | cons d rest =>
      obtain ⟨k, u⟩ := d
      have := h k
      rw [Memory.read_cons, if_pos rfl] at this
      exact absurd this.symm (hn.2 (k, u) (by simp)).2
  | cons c mrest ih =>
    obtain ⟨j, v⟩ := c
    have hmlt : ∀ d ∈ mrest, j < d.1 := Memory.wf_head_lt hm
    have hv : v ≠ unlistedByte := (hm.2 (j, v) (by simp)).2
    cases n with
    | nil =>
      have := h j
      rw [Memory.read_cons, if_pos rfl] at this
      exact absurd this hv
    | cons d nrest =>
      obtain ⟨k, u⟩ := d
      have hnlt : ∀ d ∈ nrest, k < d.1 := Memory.wf_head_lt hn
      have hu : u ≠ unlistedByte := (hn.2 (k, u) (by simp)).2
      have hjk : j = k := by
        by_contra hne
        rcases Nat.lt_or_gt_of_ne hne with hlt | hlt
        · have := h j
          rw [Memory.read_cons, if_pos rfl, Memory.read_cons, if_neg hne,
            Memory.read_of_not_listed fun d hd => by have := hnlt d hd; omega] at this
          exact hv this
        · have := h k
          rw [Memory.read_cons, if_neg (Ne.symm hne), Memory.read_cons, if_pos rfl,
            Memory.read_of_not_listed fun d hd => by have := hmlt d hd; omega] at this
          exact hu this.symm
      subst hjk
      have huv : v = u := by simpa [Memory.read_cons] using h j
      subst huv
      congr 1
      refine ih (Memory.wf_tail hm) (Memory.wf_tail hn) fun a => ?_
      by_cases ha : a = j
      · subst ha
        rw [Memory.read_of_not_listed fun d hd => by have := hmlt d hd; omega,
          Memory.read_of_not_listed fun d hd => by have := hnlt d hd; omega]
      · simpa [Memory.read_cons, ha] using h a

/-! ## Admission -/

/-- Admission depends on the platform's regions alone. -/
theorem State.admits_congr {s t : State} (h : t.admitted = s.admitted) (a : Nat) (kind : Access) :
    t.admits a kind = s.admits a kind := by simp [State.admits, h]

/-- No address outside the address space is admitted. -/
theorem State.admits_lt {s : State} {a : Nat} {kind : Access} (h : s.admits a kind = true) : a < addrSpace := by
  simp only [State.admits, Bool.and_eq_true, decide_eq_true_eq] at h
  exact h.1

theorem rangeAdmitted_congr {s t : State} (h : t.admitted = s.admitted) (a n : Nat) (kind : Access) :
    rangeAdmitted t a n kind ↔ rangeAdmitted s a n kind := by
  simp [rangeAdmitted, State.admits_congr h]

theorem rangeAdmitted_succ {s : State} {a n : Nat} {kind : Access} :
    rangeAdmitted s a (n + 1) kind ↔ s.admits a kind = true ∧ rangeAdmitted s (a + 1) n kind := by
  constructor
  · intro h
    refine ⟨by simpa using h 0 (by omega), fun i hi => ?_⟩
    have := h (i + 1) (by omega)
    rwa [show a + 1 + i = a + (i + 1) by omega]
  · rintro ⟨h0, h⟩ i hi
    cases i with
    | zero => simpa using h0
    | succ i =>
      rw [show a + (i + 1) = a + 1 + i by omega]
      exact h i (by omega)

/-! ## Byte accesses -/

theorem memRead_of_admits {s : State} {a : Nat} (h : s.admits a .read = true) : memRead s a = some (s.mem.read a) := by
  simp [memRead, h]

theorem memRead_eq_none {s : State} {a : Nat} : memRead s a = none ↔ s.admits a .read = false := by
  simp [memRead]

/-- What `memWrite` does when it answers. -/
theorem memWrite_eq_some {s t : State} {a : Nat} {v : Byte} :
    memWrite s a v = some t ↔ s.admits a .write = true ∧ t = { s with mem := s.mem.write a v } := by
  simp only [memWrite]
  split
  · rename_i h
    rw [Option.some.injEq, eq_comm]
    exact ⟨fun e => ⟨h, e⟩, And.right⟩
  · rename_i h
    exact ⟨fun e => (by cases e), fun e => absurd e.1 h⟩

theorem memWrite_eq_none {s : State} {a : Nat} {v : Byte} : memWrite s a v = none ↔ s.admits a .write = false := by
  simp [memWrite]

theorem bytesAt_succ (m : Memory) (a n : Nat) : bytesAt m a (n + 1) = m.read a :: bytesAt m (a + 1) n := by
  simp only [bytesAt, List.range_succ_eq_map, List.map_cons, List.map_map, Nat.add_zero, List.cons.injEq, true_and]
  refine List.map_congr_left fun i _ => ?_
  simp only [Function.comp_apply]
  congr 1
  omega

@[simp] theorem bytesAt_length (m : Memory) (a n : Nat) : (bytesAt m a n).length = n := by simp [bytesAt]

theorem bytesAt_getD (m : Memory) {a n i : Nat} (h : i < n) (d : Byte) : (bytesAt m a n).getD i d = m.read (a + i) := by
  simp [bytesAt, List.getD_eq_getElem?_getD, h]

/-- What `readBytes` does: the bytes of the range where all of it is admitted for reading, none otherwise. -/
theorem readBytes_eq_some {s : State} {a n : Nat} (h : rangeAdmitted s a n .read) :
    readBytes s a n = some (bytesAt s.mem a n) := by
  induction n generalizing a with
  | zero => simp [readBytes, bytesAt]
  | succ n ih =>
    obtain ⟨h0, hrest⟩ := rangeAdmitted_succ.1 h
    simp [readBytes, memRead_of_admits h0, ih hrest, bytesAt_succ]

/-- A read sees host memory and the platform's regions alone. -/
theorem readBytes_congr {s t : State} (hm : t.mem = s.mem) (ha : t.admitted = s.admitted) (a n : Nat) :
    readBytes t a n = readBytes s a n := by
  induction n generalizing a with
  | zero => rfl
  | succ n ih => simp only [readBytes, memRead, State.admits_congr ha, hm, ih]

theorem rangeAdmitted_of_readBytes {s : State} {a n : Nat} {bs : List Byte} (h : readBytes s a n = some bs) :
    rangeAdmitted s a n .read := by
  induction n generalizing a bs with
  | zero => intro i hi; omega
  | succ n ih =>
    simp only [readBytes] at h
    split at h
    · cases h
    · rename_i b hb
      split at h
      · cases h
      · rename_i bs' hbs
        refine rangeAdmitted_succ.2 ⟨?_, ih hbs⟩
        by_contra hn
        rw [memRead_eq_none.2 (by simpa using hn)] at hb
        cases hb

theorem readBytes_eq_none {s : State} {a n : Nat} : readBytes s a n = none ↔ ¬ rangeAdmitted s a n .read := by
  constructor
  · intro h hr
    rw [readBytes_eq_some hr] at h
    cases h
  · intro h
    cases hb : readBytes s a n with
    | none => rfl
    | some bs => exact absurd (rangeAdmitted_of_readBytes hb) h

/-! ## The duties of R123 -/

/-- The duties on an ENCRYPT or DECRYPT depend on the platform's regions alone. -/
theorem xorDuties_congr {s t : State} (h : t.admitted = s.admitted) {d a n : Word} :
    XorDuties t d a n ↔ XorDuties s d a n :=
  ⟨fun k => ⟨k.source, k.destination, k.overlap, (rangeAdmitted_congr h _ _ _).1 k.readable,
      (rangeAdmitted_congr h _ _ _).1 k.writable⟩,
    fun k => ⟨k.source, k.destination, k.overlap, (rangeAdmitted_congr h _ _ _).2 k.readable,
      (rangeAdmitted_congr h _ _ _).2 k.writable⟩⟩

/-- The duties on an INIT depend on the platform's regions alone. -/
theorem initDuties_congr {s t : State} (h : t.admitted = s.admitted) {ka na n : Word} :
    InitDuties t ka na n ↔ InitDuties s ka na n :=
  ⟨fun k => ⟨k.key, k.nonce, (rangeAdmitted_congr h _ _ _).1 k.keyReadable, (rangeAdmitted_congr h _ _ _).1 k.nonceReadable⟩,
    fun k => ⟨k.key, k.nonce, (rangeAdmitted_congr h _ _ _).2 k.keyReadable,
      (rangeAdmitted_congr h _ _ _).2 k.nonceReadable⟩⟩

/-! ## Bytes that lose their values (R111) -/

theorem loseBytes_read_outside {draw a n x : Nat} {m : Memory} (h : x < a ∨ a + n ≤ x) :
    (loseBytes draw a n m).read x = m.read x := by
  induction n generalizing a m with
  | zero => rfl
  | succ n ih =>
    rw [loseBytes, ih (by omega)]
    split
    · exact Memory.read_write_of_ne _ (by omega)
    · rfl

/-- A byte that lost its value is the free value of its address, whatever it held. -/
theorem loseBytes_read_inside {draw a n x : Nat} {m : Memory} (hm : m.wf) (ha : a ≤ x) (hn : x < a + n)
    (hx : x < addrSpace) : (loseBytes draw a n m).read x = Config.freeByte draw x := by
  induction n generalizing a m with
  | zero => omega
  | succ n ih =>
    rw [loseBytes]
    rcases Nat.eq_or_lt_of_le ha with rfl | h
    · rw [loseBytes_read_outside (by omega), if_pos hx]
      exact Memory.read_write_same hm _ _
    · refine ih ?_ h (by omega)
      split
      · exact Memory.write_wf hm ‹_› _
      · exact hm

theorem loseBytes_wf {draw a n : Nat} {m : Memory} (hm : m.wf) : (loseBytes draw a n m).wf := by
  induction n generalizing a m with
  | zero => exact hm
  | succ n ih =>
    rw [loseBytes]
    split
    · exact ih (Memory.write_wf hm ‹_› _)
    · exact ih hm

/-- Ranges that lose their bytes one after another, under one draw. -/
def loseRanges (draw : Nat) (ranges : List (Nat × Nat)) (m : Memory) : Memory :=
  ranges.foldl (fun m range => loseBytes draw range.1 range.2 m) m

theorem loseRanges_wf {draw : Nat} {ranges : List (Nat × Nat)} {m : Memory} (hm : m.wf) : (loseRanges draw ranges m).wf := by
  induction ranges generalizing m with
  | nil => exact hm
  | cons r rest ih => exact ih (loseBytes_wf hm)

theorem loseRanges_read_outside {draw x : Nat} {ranges : List (Nat × Nat)} {m : Memory}
    (h : ∀ r ∈ ranges, x < r.1 ∨ r.1 + r.2 ≤ x) : (loseRanges draw ranges m).read x = m.read x := by
  induction ranges generalizing m with
  | nil => rfl
  | cons r rest ih =>
    exact (ih fun q hq => h q (by simp [hq])).trans (loseBytes_read_outside (h r (by simp)))

theorem loseRanges_read_inside {draw x : Nat} {ranges : List (Nat × Nat)} {m : Memory} (hm : m.wf) (hx : x < addrSpace)
    (h : m.read x = Config.freeByte draw x ∨ ∃ r ∈ ranges, r.1 ≤ x ∧ x < r.1 + r.2) :
    (loseRanges draw ranges m).read x = Config.freeByte draw x := by
  induction ranges generalizing m with
  | nil => exact h.resolve_right (by simp)
  | cons r rest ih =>
    refine ih (loseBytes_wf hm) ?_
    by_cases hr : r.1 ≤ x ∧ x < r.1 + r.2
    · exact .inl (loseBytes_read_inside hm hr.1 hr.2 hx)
    · rcases h with h | ⟨q, hq, hin⟩
      · exact .inl ((loseBytes_read_outside (by omega)).trans h)
      · rcases List.mem_cons.1 hq with rfl | hq
        · exact absurd hin hr
        · exact .inr ⟨q, hq, hin⟩

end Sys2Proof.Machine
end

