-- ==== Sys2Proof/Laws/Block.lean ====
section
/-! SUPPORT. Shape lemmas of the block function and of repeated counter advancement. -/

namespace Sys2Proof.Machine

@[simp] theorem bytesLe32_length (w : Word) : (bytesLe32 w).length = 4 := rfl

/-- A serialised array is 64 bytes (R83). -/
@[simp] theorem serialize_length (Y : Words16) : (serialize Y).length = 64 := by
  simp [serialize]

/-- A keystream block is exactly 64 bytes (R83, R84). -/
@[simp] theorem blockOf_length (S : Words16) : (blockOf S).length = 64 := by
  rw [blockOf]
  exact serialize_length _

@[simp] theorem advances_zero (S : Words16) : advances 0 S = S := rfl

theorem advances_succ (q : Nat) (S : Words16) : advances (q + 1) S = advances q (advance S) := rfl

theorem advances_add (p q : Nat) (S : Words16) : advances (p + q) S = advances q (advances p S) := by
  induction p generalizing S with
  | zero => simp
  | succ p ih => rw [Nat.succ_add, advances_succ, ih, advances_succ]

/-- The last advance written last. -/
theorem advances_succ_last (q : Nat) (S : Words16) : advances (q + 1) S = advance (advances q S) :=
  advances_add q 1 S

@[simp] theorem advance_getElem_of_ne (S : Words16) {i : Nat} (hi : i < 16) (h12 : i ≠ 12) (h13 : i ≠ 13) :
    (advance S)[i] = S[i] := by
  simp only [advance]
  split <;> simp [Ne.symm h12, Ne.symm h13]

/-- ADVANCE changes no word but `S[12]` and `S[13]`, however often it runs. -/
theorem advances_getElem_of_ne (q : Nat) (S : Words16) {i : Nat} (hi : i < 16) (h12 : i ≠ 12) (h13 : i ≠ 13) :
    (advances q S)[i] = S[i] := by
  induction q generalizing S with
  | zero => rfl
  | succ q ih => rw [advances_succ, ih, advance_getElem_of_ne S hi h12 h13]

/-- ADVANCE keeps the constant region. -/
theorem constantsHold_advances {S : Words16} (q : Nat) (h : constantsHold S) : constantsHold (advances q S) := by
  obtain ⟨h0, h1, h2, h3⟩ := h
  refine ⟨?_, ?_, ?_, ?_⟩ <;> rw [advances_getElem_of_ne q S (by omega) (by omega) (by omega)] <;> assumption

/-- The keystream goes on: byte `64 + i` from state `S` is byte `i` from `ADVANCE(S)`. -/
theorem keystreamByte_advance (S : Words16) (i : Nat) : keystreamByte (advance S) i = keystreamByte S (64 + i) := by
  have hd : (64 + i) / 64 = i / 64 + 1 := by omega
  have hm : (64 + i) % 64 = i % 64 := by omega
  rw [keystreamByte, keystreamByte, hd, hm, advances_succ]

/-- The keystream goes on over whole blocks. -/
theorem keystreamByte_advances (q : Nat) (S : Words16) (i : Nat) :
    keystreamByte (advances q S) i = keystreamByte S (64 * q + i) := by
  have hd : (64 * q + i) / 64 = q + i / 64 := by omega
  have hm : (64 * q + i) % 64 = i % 64 := by omega
  rw [keystreamByte, keystreamByte, hd, hm, advances_add]

end Sys2Proof.Machine
end

