-- ==== Sys2Proof/Laws/Init.lean ====
section
/-! SUPPORT. Everything INIT can do, and the words it builds in terms of host memory. -/

namespace Sys2Proof.Machine

/-- A word of a byte range is the word of host memory at its place. -/
theorem wordAt_bytesAt {m : Memory} {a n i : Nat} (h : 4 * i + 3 < n) : wordAt (bytesAt m a n) i = le32At m (a + 4 * i) := by
  simp only [wordAt, le32At]
  rw [bytesAt_getD m (by omega), bytesAt_getD m (by omega), bytesAt_getD m (by omega), bytesAt_getD m (by omega)]
  rfl

/-- The state INIT builds, in terms of host memory (R64, R67, R68). -/
theorem instanceWords_toList (m : Memory) (a : Nat) (w12 w13 w14 w15 : Word) :
    (instanceWords (bytesAt m a 32) w12 w13 w14 w15).toList =
      [0x61707865#32, 0x3320646e#32, 0x79622d32#32, 0x6b206574#32] ++
        (List.range 8).map (fun i => le32At m (a + 4 * i)) ++ [w12, w13, w14, w15] := by
  have h : ∀ i < 8, wordAt (bytesAt m a 32) i = le32At m (a + 4 * i) := fun i hi => wordAt_bytesAt (by omega)
  have hl : (instanceWords (bytesAt m a 32) w12 w13 w14 w15).toList =
      [sigma 0, sigma 1, sigma 2, sigma 3] ++ (List.range 8).map (wordAt (bytesAt m a 32)) ++ [w12, w13, w14, w15] := rfl
  have hmap : (List.range 8).map (wordAt (bytesAt m a 32)) = (List.range 8).map fun i => le32At m (a + 4 * i) :=
    List.map_congr_left fun i hi => h i (List.mem_range.1 hi)
  rw [hl, hmap]
  rfl

/-- INIT builds the constant region (R67). -/
theorem constantsHold_instanceWords (key : List Byte) (w12 w13 w14 w15 : Word) :
    constantsHold (instanceWords key w12 w13 w14 w15) := ⟨rfl, rfl, rfl, rfl⟩

/-- The next state of a successful INIT. -/
def initNext (nlen kaddr naddr ctr : Word) (s : State) : State :=
  if nlen = 8#32 then
    respond .ok (construct (refWords (bytesAt s.mem kaddr.toNat 32) (bytesAt s.mem naddr.toNat 8)) .ref s)
  else
    respond .ok (construct (ietfWords (bytesAt s.mem kaddr.toNat 32) (bytesAt s.mem naddr.toNat 12) ctr) .ietf s)

@[simp] theorem initNext_ready (nlen kaddr naddr ctr : Word) (s : State) :
    (initNext nlen kaddr naddr ctr s).engine.ready = true := by unfold initNext; split <;> simp

@[simp] theorem initNext_results (nlen kaddr naddr ctr : Word) (s : State) :
    (initNext nlen kaddr naddr ctr s).engine.results = s.engine.results ++ [resultWord .ok] := by
  unfold initNext; split <;> simp

@[simp] theorem initNext_faulted (nlen kaddr naddr ctr : Word) (s : State) :
    (initNext nlen kaddr naddr ctr s).engine.faulted = s.engine.faulted := by unfold initNext; split <;> simp

@[simp] theorem initNext_mem (nlen kaddr naddr ctr : Word) (s : State) :
    (initNext nlen kaddr naddr ctr s).mem = s.mem := by unfold initNext; split <;> simp

@[simp] theorem initNext_admitted (nlen kaddr naddr ctr : Word) (s : State) :
    (initNext nlen kaddr naddr ctr s).admitted = s.admitted := by unfold initNext; split <;> simp

/-- A constructed instance holds the constants (R67). -/
theorem constantsHold_initNext (nlen kaddr naddr ctr : Word) (s : State) :
    constantsHold (initNext nlen kaddr naddr ctr s).engine.S := by
  unfold initNext
  split
  · exact constantsHold_instanceWords _ _ _ _ _
  · exact constantsHold_instanceWords _ _ _ _ _

/-- The range check on a non-empty range is exactly R33. -/
theorem crossesTop_of_pos {a n : Word} (hn : 0 < n.toNat) : crossesTop a n = false ↔ a.toNat + n.toNat ≤ 2 ^ 32 := by
  simp only [crossesTop, addrSpace, Bool.and_eq_false_iff, decide_eq_false_iff_not]
  omega

theorem execInit_of_duties {nlen kaddr naddr : Word} (ctr : Word) {s : State} (hn : nlen = 8#32 ∨ nlen = 12#32)
    (h : InitDuties s kaddr naddr nlen) :
    execInit 32#32 nlen kaddr naddr ctr s = .next (initNext nlen kaddr naddr ctr s) := by
  have hk := readBytes_eq_some h.keyReadable
  have hr := readBytes_eq_some h.nonceReadable
  have hkey : crossesTop kaddr 32#32 = false := (crossesTop_of_pos (by decide)).2 h.key
  have hnonce : crossesTop naddr nlen = false := (crossesTop_of_pos (by rcases hn with rfl | rfl <;> decide)).2 h.nonce
  have hk' : readBytes s kaddr.toNat (32#32).toNat = _ := hk
  rcases hn with rfl | rfl <;>
    simp only [execInit, hkey, hnonce, hk', hr, initNext] <;> rfl

/-- Everything INIT can do (R112). -/
theorem execInit_cases (klen nlen kaddr naddr ctr : Word) (s : State) :
    (klen ≠ 32#32 ∧ execInit klen nlen kaddr naddr ctr s = .next (respond .wrongKeySize (failConstruction s))) ∨
    (klen = 32#32 ∧ nlen ≠ 8#32 ∧ nlen ≠ 12#32 ∧
      execInit klen nlen kaddr naddr ctr s = .next (respond .wrongNonceSize (failConstruction s))) ∨
    (klen = 32#32 ∧ (nlen = 8#32 ∨ nlen = 12#32) ∧ InitDuties s kaddr naddr nlen ∧
      execInit klen nlen kaddr naddr ctr s = .next (initNext nlen kaddr naddr ctr s)) ∨
    (klen = 32#32 ∧ (nlen = 8#32 ∨ nlen = 12#32) ∧ ¬ InitDuties s kaddr naddr nlen ∧
      execInit klen nlen kaddr naddr ctr s = .fault (.bufferFault (.init klen nlen kaddr naddr ctr))) := by
  by_cases hk : klen = 32#32
  · subst hk
    by_cases hn : nlen = 8#32 ∨ nlen = 12#32
    · by_cases h : InitDuties s kaddr naddr nlen
      · exact .inr (.inr (.inl ⟨rfl, hn, h, execInit_of_duties ctr hn h⟩))
      · refine .inr (.inr (.inr ⟨rfl, hn, h, ?_⟩))
        have hnot : ¬ (nlen ≠ 8#32 ∧ nlen ≠ 12#32) := by rcases hn with rfl | rfl <;> decide
        simp only [execInit, ne_eq, not_true_eq_false, if_false, if_neg hnot]
        split
        · rfl
        · rename_i hc
          simp only [Bool.or_eq_true, not_or, Bool.not_eq_true] at hc
          split
          · rename_i key nonce hkey hnonce
            exact absurd ⟨(crossesTop_of_pos (by decide)).1 hc.1,
              (crossesTop_of_pos (by rcases hn with rfl | rfl <;> decide)).1 hc.2, rangeAdmitted_of_readBytes hkey, rangeAdmitted_of_readBytes hnonce⟩ h
          · rfl
    · rw [not_or] at hn
      exact .inr (.inl ⟨rfl, hn.1, hn.2, by simp [execInit, hn.1, hn.2]⟩)
  · exact .inl ⟨hk, by simp [execInit, hk]⟩

end Sys2Proof.Machine
end

