-- ==== Sys2Proof/Laws/PerInstr.lean ====
section
/-! SUPPORT. Per-instruction facts about the encodings, one lemma per constructor of `Instr`. -/

namespace Sys2Proof.Laws.OpcodeByte

/-- The opcode byte of a command (R53). -/
def opcode : Instr → BitVec 8
  | .init _ _ _ _ _ => 0x01#8
  | .encrypt _ _ _ => 0x02#8
  | .decrypt _ _ _ => 0x03#8

/-- The header of a command's encoding holds its opcode in `W0[7:0]` (R49), whatever its operands are. -/
def Statement (i : Instr) : Prop := opField (encode i).w0 = opcode i

theorem init (klen nlen kaddr naddr ctr : Word) : Statement (.init klen nlen kaddr naddr ctr) := by
  simp only [Statement, opcode, opField, encode]
  apply BitVec.eq_of_getLsbD_eq
  intro j hj
  have h1 : j < 16 := by omega
  simp [hj, h1]

theorem encrypt (daddr saddr len : Word) : Statement (.encrypt daddr saddr len) := rfl

theorem decrypt (daddr saddr len : Word) : Statement (.decrypt daddr saddr len) := rfl

end Sys2Proof.Laws.OpcodeByte
end

