-- ==== Sys2Proof/Laws/Xor.lean ====
section
/-! SUPPORT. Everything the streaming XOR can do: where every byte is admitted it answers the state its pure effect
gives, and otherwise nothing; and what that effect does to each byte of memory. -/

namespace Sys2Proof.Machine

/-- The effect of `xorBytes` on host memory. -/
def xorMem : List Byte → Nat → Nat → Memory → Memory
  | [], _, _, m => m
  | k :: ks, d, a, m => xorMem ks (d + 1) (a + 1) (m.write d (m.read a ^^^ k))

/-- The effect of `stream` on host memory, from cipher state `S`. -/
def streamMem : Nat → Nat → Nat → Nat → Words16 → Memory → Memory
  | 0, _, _, _, _, m => m
  | blocks + 1, d, a, rem, S, m =>
    streamMem blocks (d + 64) (a + 64) (rem - min rem 64) (advance S) (xorMem ((blockOf S).take (min rem 64)) d a m)

/-- Source and destination ranges that are equal or disjoint (R43). -/
def separate (d a n : Nat) : Prop := d = a ∨ d + n ≤ a ∨ a + n ≤ d

/-! ## The inner loop -/

theorem xorBytes_eq_some {ks : List Byte} {d a : Nat} {s : State} (hr : rangeAdmitted s a ks.length .read)
    (hw : rangeAdmitted s d ks.length .write) :
    xorBytes ks d a s = some { s with mem := xorMem ks d a s.mem } := by
  induction ks generalizing d a s with
  | nil => rfl
  | cons k ks ih =>
    obtain ⟨hr0, hr⟩ := rangeAdmitted_succ.1 hr
    obtain ⟨hw0, hw⟩ := rangeAdmitted_succ.1 hw
    have hwrite : memWrite s d (s.mem.read a ^^^ k) = some _ := memWrite_eq_some.2 ⟨hw0, rfl⟩
    simp only [xorBytes, memRead_of_admits hr0, hwrite, xorMem]
    exact ih ((rangeAdmitted_congr (by rfl) _ _ _).2 hr) ((rangeAdmitted_congr (by rfl) _ _ _).2 hw)

theorem rangeAdmitted_of_xorBytes {ks : List Byte} {d a : Nat} {s t : State} (h : xorBytes ks d a s = some t) :
    rangeAdmitted s a ks.length .read ∧ rangeAdmitted s d ks.length .write := by
  induction ks generalizing d a s with
  | nil => exact ⟨fun i hi => absurd hi (by simp), fun i hi => absurd hi (by simp)⟩
  | cons k ks ih =>
    simp only [xorBytes] at h
    split at h
    · cases h
    · rename_i b hb
      split at h
      · cases h
      · rename_i u hu
        obtain ⟨hw0, rfl⟩ := memWrite_eq_some.1 hu
        obtain ⟨hr, hw⟩ := ih h
        have hr0 : s.admits a .read = true := by
          by_contra hn
          rw [memRead_eq_none.2 (by simpa using hn)] at hb
          cases hb
        exact ⟨rangeAdmitted_succ.2 ⟨hr0, (rangeAdmitted_congr (by rfl) _ _ _).1 hr⟩,
          rangeAdmitted_succ.2 ⟨hw0, (rangeAdmitted_congr (by rfl) _ _ _).1 hw⟩⟩

theorem xorMem_read_outside {ks : List Byte} {d a b : Nat} {m : Memory} (h : b < d ∨ d + ks.length ≤ b) :
    (xorMem ks d a m).read b = m.read b := by
  induction ks generalizing d a m with
  | nil => rfl
  | cons k ks ih =>
    simp only [List.length_cons] at h
    rw [xorMem, ih (by omega), Memory.read_write_of_ne _ (by omega)]

theorem xorMem_wf {ks : List Byte} {d a : Nat} {m : Memory} (hm : m.wf) (hd : d + ks.length ≤ addrSpace) :
    (xorMem ks d a m).wf := by
  induction ks generalizing d a m with
  | nil => exact hm
  | cons k ks ih =>
    simp only [List.length_cons] at hd
    exact ih (Memory.write_wf hm (by omega) _) (by omega)

/-- Each destination byte is the old source byte XORed with its keystream byte. -/
theorem xorMem_read {ks : List Byte} {d a i : Nat} {m : Memory} (hm : m.wf) (hd : d + ks.length ≤ addrSpace)
    (hsep : separate d a ks.length) (hi : i < ks.length) :
    (xorMem ks d a m).read (d + i) = m.read (a + i) ^^^ ks.getD i 0 := by
  induction ks generalizing d a m i with
  | nil => simp at hi
  | cons k ks ih =>
    simp only [List.length_cons, separate] at hd hsep hi
    cases i with
    | zero =>
      rw [xorMem, xorMem_read_outside (by omega)]
      simpa using Memory.read_write_same hm d _
    | succ i =>
      have := ih (d := d + 1) (a := a + 1) (i := i) (m := m.write d (m.read a ^^^ k))
        (Memory.write_wf hm (by omega) _) (by omega) (by simp only [separate]; omega) (by omega)
      rw [xorMem, show d + (i + 1) = d + 1 + i by omega, this, Memory.read_write_of_ne _ (by omega),
        show a + 1 + i = a + (i + 1) by omega]
      simp

/-! ## The block loop -/

theorem blockCount_eq_zero {n : Nat} : blockCount n = 0 ↔ n = 0 := by simp only [blockCount]; omega

/-- A turn of the loop takes one block off the count. -/
theorem blockCount_rest {n b : Nat} (h : blockCount n = b + 1) : blockCount (n - min n 64) = b := by
  simp only [blockCount] at *; omega

/-- The least `k` with `64k >= n` (R11). -/
theorem blockCount_le_iff {n k : Nat} : blockCount n ≤ k ↔ n ≤ 64 * k := by simp only [blockCount]; omega

theorem take_block_length (S : Words16) (n : Nat) : ((blockOf S).take (min n 64)).length = min n 64 := by simp

/-- The range of a length splits after its first block. -/
theorem rangeAdmitted_split {s : State} {a n : Nat} {kind : Access} :
    rangeAdmitted s a n kind ↔
      rangeAdmitted s a (min n 64) kind ∧ rangeAdmitted s (a + 64) (n - min n 64) kind := by
  constructor
  · intro h
    refine ⟨fun i hi => h i (by omega), fun i hi => ?_⟩
    rw [Nat.add_assoc]
    exact h (64 + i) (by omega)
  · rintro ⟨h0, h1⟩ i hi
    rcases Nat.lt_or_ge i 64 with hlt | hge
    · exact h0 i (by omega)
    · have := h1 (i - 64) (by omega)
      rwa [show a + 64 + (i - 64) = a + i by omega] at this

/-- What STREAM does where every byte is admitted (R93). -/
theorem stream_eq_some {b d a n : Nat} {s : State} (hb : blockCount n = b) (hr : rangeAdmitted s a n .read)
    (hw : rangeAdmitted s d n .write) :
    stream b d a n s =
      some { s with
        mem := streamMem b d a n s.engine.S s.mem
        engine := { s.engine with S := advances b s.engine.S } } := by
  induction b generalizing d a n s with
  | zero => rfl
  | succ b ih =>
    obtain ⟨hr0, hr1⟩ := rangeAdmitted_split.1 hr
    obtain ⟨hw0, hw1⟩ := rangeAdmitted_split.1 hw
    have hx := xorBytes_eq_some (ks := (blockOf s.engine.S).take (min n 64)) (s := s) (d := d) (a := a)
      (by rwa [take_block_length]) (by rwa [take_block_length])
    simp only [stream, xorBlock, hx, Option.map_some]
    rw [ih (blockCount_rest hb) ((rangeAdmitted_congr (by rfl) _ _ _).2 hr1)
      ((rangeAdmitted_congr (by rfl) _ _ _).2 hw1)]
    rfl

/-- STREAM answers only where every byte is admitted. -/
theorem rangeAdmitted_of_stream {b d a n : Nat} {s t : State} (hb : blockCount n = b) (h : stream b d a n s = some t) :
    rangeAdmitted s a n .read ∧ rangeAdmitted s d n .write := by
  induction b generalizing d a n s with
  | zero =>
    have := blockCount_eq_zero.1 hb
    subst this
    exact ⟨fun i hi => absurd hi (by omega), fun i hi => absurd hi (by omega)⟩
  | succ b ih =>
    simp only [stream] at h
    split at h
    · cases h
    · rename_i u hu
      simp only [xorBlock, Option.map_eq_some_iff] at hu
      obtain ⟨v, hv, rfl⟩ := hu
      obtain ⟨hr0, hw0⟩ := rangeAdmitted_of_xorBytes hv
      have hvs : v.admitted = s.admitted := by
        rw [xorBytes_eq_some hr0 hw0, Option.some.injEq] at hv
        subst hv
        rfl
      rw [take_block_length] at hr0 hw0
      obtain ⟨hr1, hw1⟩ := ih (blockCount_rest hb) h
      exact ⟨rangeAdmitted_split.2 ⟨hr0, (rangeAdmitted_congr (by simpa using hvs) _ _ _).1 hr1⟩,
        rangeAdmitted_split.2 ⟨hw0, (rangeAdmitted_congr (by simpa using hvs) _ _ _).1 hw1⟩⟩

theorem stream_eq_none {b d a n : Nat} {s : State} (hb : blockCount n = b) :
    stream b d a n s = none ↔ ¬ (rangeAdmitted s a n .read ∧ rangeAdmitted s d n .write) := by
  constructor
  · rintro h ⟨hr, hw⟩
    rw [stream_eq_some hb hr hw] at h
    cases h
  · intro h
    cases hs : stream b d a n s with
    | none => rfl
    | some t => exact absurd (rangeAdmitted_of_stream hb hs) h

theorem streamMem_read_outside {b d a n x : Nat} {S : Words16} {m : Memory} (hb : blockCount n = b)
    (h : x < d ∨ d + n ≤ x) : (streamMem b d a n S m).read x = m.read x := by
  induction b generalizing d a n S m with
  | zero => rfl
  | succ b ih =>
    have hn : n ≠ 0 := fun h0 => by rw [blockCount_eq_zero.2 h0] at hb; cases hb
    rcases Nat.eq_zero_or_pos b with rfl | hpos
    · rw [streamMem, streamMem, xorMem_read_outside (by rw [take_block_length]; omega)]
    · have h64 : 64 < n := by simp only [blockCount] at hb; omega
      rw [streamMem, ih (blockCount_rest hb) (by omega), xorMem_read_outside (by rw [take_block_length]; omega)]

theorem streamMem_wf {b d a n : Nat} {S : Words16} {m : Memory} (hb : blockCount n = b) (hm : m.wf)
    (hd : d + n ≤ addrSpace) : (streamMem b d a n S m).wf := by
  induction b generalizing d a n S m with
  | zero => exact hm
  | succ b ih =>
    have hx : (xorMem ((blockOf S).take (min n 64)) d a m).wf := xorMem_wf hm (by rw [take_block_length]; omega)
    rcases Nat.eq_zero_or_pos b with rfl | hpos
    · rwa [streamMem, streamMem]
    · have h64 : 64 < n := by simp only [blockCount] at hb; omega
      rw [streamMem]
      exact ih (blockCount_rest hb) hx (by omega)

/-- The closed form of the block loop on memory: each destination byte is the old source byte XORed with the keystream
byte of its offset. -/
theorem streamMem_read {b d a n i : Nat} {S : Words16} {m : Memory} (hb : blockCount n = b) (hm : m.wf)
    (hd : d + n ≤ addrSpace) (hsep : separate d a n) (hi : i < n) :
    (streamMem b d a n S m).read (d + i) = m.read (a + i) ^^^ keystreamByte S i := by
  induction b generalizing d a n S m i with
  | zero => rw [blockCount_eq_zero.1 hb] at hi; cases hi
  | succ b ih =>
    simp only [separate] at hsep
    have hxd : d + ((blockOf S).take (min n 64)).length ≤ addrSpace := by rw [take_block_length]; omega
    rw [streamMem]
    rcases Nat.lt_or_ge i 64 with hlt | hge
    · have hout : ∀ m', (streamMem b (d + 64) (a + 64) (n - min n 64) (advance S) m').read (d + i) = m'.read (d + i) :=
        fun m' => streamMem_read_outside (blockCount_rest hb) (by omega)
      rw [hout, xorMem_read hm hxd (by rw [take_block_length]; simp only [separate]; omega)
        (by rw [take_block_length]; omega)]
      congr 1
      simp only [keystreamByte, Nat.div_eq_of_lt hlt, Nat.mod_eq_of_lt hlt, advances_zero, List.getD_eq_getElem?_getD]
      rw [List.getElem?_take_of_lt (by omega)]
    · have hx : (xorMem ((blockOf S).take (min n 64)) d a m).wf := xorMem_wf hm hxd
      have := ih (d := d + 64) (a := a + 64) (i := i - 64) (S := advance S) (blockCount_rest hb) hx
        (by omega) (by simp only [separate]; omega) (by omega)
      rw [show d + i = d + 64 + (i - 64) by omega, this,
        xorMem_read_outside (by rw [take_block_length]; omega), show a + 64 + (i - 64) = a + i by omega,
        keystreamByte_advance, show 64 + (i - 64) = i by omega]

/-! ## The command -/

/-- The range check is exactly R33. -/
theorem crossesTop_eq_false {a n : Word} : crossesTop a n = false ↔ insideSpace a n := by
  simp only [crossesTop, insideSpace, addrSpace, Bool.and_eq_false_iff, decide_eq_false_iff_not]
  omega

/-- The overlap check is exactly R43. -/
theorem partialOverlap_eq_false {d a n : Word} : partialOverlap d a n = false ↔ equalOrDisjoint d a n := by
  simp only [partialOverlap, equalOrDisjoint, Bool.and_eq_false_iff, decide_eq_false_iff_not, ne_eq, Decidable.not_not,
    BitVec.toNat_eq (x := a)]
  omega

/-- Non-empty ranges that meet the overlap duty are separate. -/
theorem separate_of_equalOrDisjoint {d a n : Word} (h : equalOrDisjoint d a n) (hn : 0 < n.toNat) :
    separate d.toNat a.toNat n.toNat := by
  simp only [equalOrDisjoint, separate, BitVec.toNat_eq (x := a)] at *
  omega

/-- The next state of a command that meets the duties of R123. -/
def xorNext (d a len : Word) (s : State) : State :=
  respond .ok { s with
    mem := streamMem (blockCount len.toNat) d.toNat a.toNat len.toNat s.engine.S s.mem
    engine := { s.engine with S := advances (blockCount len.toNat) s.engine.S } }

/-- A completed command keeps the canonical form of memory. -/
theorem xorNext_wf {d a len : Word} {s : State} (hm : s.mem.wf) (hd : insideSpace d len) : (xorNext d a len s).mem.wf := by
  rcases hd with h0 | h
  · simp only [xorNext, respond_mem, blockCount_eq_zero.2 h0, streamMem]
    exact hm
  · exact streamMem_wf rfl hm h

theorem xorCommand_notConstructed {command : Instr} {d a len : Word} {s : State} (h : s.engine.ready = false) :
    xorCommand command d a len s = .next (respond .notConstructed s) := by simp [xorCommand, h]

theorem xorCommand_of_duties {command : Instr} {d a len : Word} {s : State} (h : s.engine.ready = true)
    (hd : XorDuties s d a len) : xorCommand command d a len s = .next (xorNext d a len s) := by
  simp only [xorCommand, h, crossesTop_eq_false.2 hd.source, crossesTop_eq_false.2 hd.destination,
    partialOverlap_eq_false.2 hd.overlap, stream_eq_some rfl hd.readable hd.writable, xorNext]
  simp

/-- Everything `xorCommand` can do (R112). -/
theorem xorCommand_cases (command : Instr) (d a len : Word) (s : State) :
    (s.engine.ready = false ∧ xorCommand command d a len s = .next (respond .notConstructed s)) ∨
    (s.engine.ready = true ∧ XorDuties s d a len ∧ xorCommand command d a len s = .next (xorNext d a len s)) ∨
    (s.engine.ready = true ∧ ¬ (insideSpace a len ∧ insideSpace d len) ∧
      xorCommand command d a len s = .fault (.bufferFault command)) ∨
    (s.engine.ready = true ∧ insideSpace a len ∧ insideSpace d len ∧ ¬ equalOrDisjoint d a len ∧
      xorCommand command d a len s = .fault (.overlapUnmodelled command)) ∨
    (s.engine.ready = true ∧ insideSpace a len ∧ insideSpace d len ∧ equalOrDisjoint d a len ∧
      ¬ (rangeAdmitted s a.toNat len.toNat .read ∧ rangeAdmitted s d.toNat len.toNat .write) ∧
      xorCommand command d a len s = .fault (.bufferFault command)) := by
  simp only [← crossesTop_eq_false, ← partialOverlap_eq_false]
  cases hready : s.engine.ready with
  | false => exact .inl ⟨rfl, xorCommand_notConstructed hready⟩
  | true =>
    refine .inr ?_
    by_cases hc : crossesTop a len = false ∧ crossesTop d len = false
    · obtain ⟨ha, hd⟩ := hc
      cases ho : partialOverlap d a len with
      | true =>
        exact .inr (.inr (.inl ⟨rfl, ha, hd, by simp, by simp [xorCommand, hready, ha, hd, ho, raiseOverlapUnmodelled]⟩))
      | false =>
        by_cases hadm : rangeAdmitted s a.toNat len.toNat .read ∧ rangeAdmitted s d.toNat len.toNat .write
        · have hduties : XorDuties s d a len :=
            ⟨crossesTop_eq_false.1 ha, crossesTop_eq_false.1 hd, partialOverlap_eq_false.1 ho, hadm.1, hadm.2⟩
          exact .inl ⟨rfl, hduties, xorCommand_of_duties hready hduties⟩
        · refine .inr (.inr (.inr ⟨rfl, ha, hd, rfl, hadm, ?_⟩))
          simp [xorCommand, hready, ha, hd, ho, (stream_eq_none rfl).2 hadm, raiseBufferFault]
    · refine .inr (.inl ⟨rfl, hc, ?_⟩)
      have hor : (crossesTop a len || crossesTop d len) = true := by
        cases ha : crossesTop a len <;> cases hd : crossesTop d len <;> simp_all
      simp [xorCommand, hready, hor, raiseBufferFault]

end Sys2Proof.Machine
end

