-- ==== Sys2Proof/Laws/Step.lean ====
section
/-! SUPPORT. Everything a step can do: turning to an engine, and one inversion lemma per kind of host action. -/

namespace Sys2Proof.Machine

/-! ## Turning to an engine -/

/-- What `focus` does: the engine of that number, all engines as they were. -/
theorem focus_eq_some {k : Nat} {s t : State} (h : s.focus k = some t) :
    s.engines[k]? = some t.engine ∧ t.engines = s.engines ∧ t.index = k ∧ t.mem = s.mem ∧
      t.admitted = s.admitted ∧ t.inputs = s.inputs ∧ t.draws = s.draws := by
  simp only [State.focus] at h
  split at h
  · cases h
  · rename_i e rest hd
    have hk : k < s.engines.length := by
      by_contra hn
      rw [List.drop_eq_nil_of_le (by omega)] at hd
      cases hd
    rw [Option.some.injEq] at h
    subst h
    have hsplit : s.engines.take k ++ e :: rest = s.engines := by rw [← hd, List.take_append_drop]
    refine ⟨?_, hsplit, by simp [State.index]; omega, rfl, rfl, rfl, rfl⟩
    have := congrArg List.head? hd
    simpa using this

/-- There is an engine to turn to exactly below `N_ENGINES`. -/
theorem focus_eq_none {k : Nat} {s : State} : s.focus k = none ↔ s.engines.length ≤ k := by
  simp only [State.focus]
  split
  · rename_i hd
    simpa using hd
  · rename_i e rest hd
    constructor
    · intro h
      cases h
    · intro hle
      rw [List.drop_eq_nil_of_le hle] at hd
      cases hd

/-- Turning to the engine the host already drives changes nothing. -/
theorem focus_index (s : State) : s.focus s.index = some s := by
  simp [State.focus, State.engines, State.index]

/-- Below `N_ENGINES` there is an engine to turn to. -/
theorem focus_of_lt {k : Nat} {s : State} (h : k < s.engines.length) : ∃ t, s.focus k = some t := by
  cases hf : s.focus k with
  | none => exact absurd (focus_eq_none.1 hf) (by omega)
  | some t => exact ⟨t, rfl⟩

/-- After turning, the engines around the driven one are those of smaller and greater number. -/
theorem focus_around {k : Nat} {s t : State} (h : s.focus k = some t) :
    t.before = s.engines.take k ∧ t.after = s.engines.drop (k + 1) := by
  obtain ⟨-, h2, h3, -⟩ := focus_eq_some h
  have hl : t.before.length = k := h3
  have e : t.before ++ t.engine :: t.after = s.engines := h2
  rw [← e, ← hl]
  simp

/-- The driven engine stands at its number. -/
theorem engines_index (s : State) : s.engines[s.index]? = some s.engine := by simp [State.engines, State.index]

/-- Where the engines around the driven one are kept, every engine but the driven one is. -/
theorem engines_of_around {s t : State} (hb : t.before = s.before) (ha : t.after = s.after) :
    t.engines.length = s.engines.length ∧ ∀ j, j ≠ s.index → t.engines[j]? = s.engines[j]? := by
  simp only [State.engines, hb, ha, State.index]
  refine ⟨by simp, fun j hj => ?_⟩
  rcases Nat.lt_or_ge j s.before.length with h | h
  · rw [List.getElem?_append_left h, List.getElem?_append_left h]
  · rw [List.getElem?_append_right h, List.getElem?_append_right h]
    obtain ⟨m, hm⟩ : ∃ m, j - s.before.length = m + 1 := ⟨j - s.before.length - 1, by omega⟩
    rw [hm]
    simp

/-- A property of every engine is kept where the engines around are kept and the driven one has it. -/
theorem forall_engines_of_around {s t : State} (hb : t.before = s.before) (ha : t.after = s.after) {P : Engine → Prop}
    (hs : ∀ e ∈ s.engines, P e) (ht : P t.engine) : ∀ e ∈ t.engines, P e := by
  intro e he
  simp only [State.engines, List.mem_append, List.mem_cons, hb, ha] at *
  rcases he with he | rfl | he
  · exact hs e (.inl he)
  · exact ht
  · exact hs e (.inr (.inr he))

@[simp] theorem engines_pop (s : State) : s.pop.engines = s.engines := rfl

/-! ## The arms of `exec` -/

theorem exec_init (klen nlen kaddr naddr ctr : Word) (s : State) :
    exec (.init klen nlen kaddr naddr ctr) s = execInit klen nlen kaddr naddr ctr s := rfl

theorem exec_encrypt (daddr saddr len : Word) (s : State) :
    exec (.encrypt daddr saddr len) s = xorCommand (.encrypt daddr saddr len) daddr saddr len s := rfl

theorem exec_decrypt (daddr saddr len : Word) (s : State) :
    exec (.decrypt daddr saddr len) s = xorCommand (.decrypt daddr saddr len) daddr saddr len s := rfl

/-! ## What a command leaves alone -/

/-- What every command keeps when it completes: the other engines, the platform, the host's actions. -/
structure CommandKeeps (s t : State) : Prop where
  before : t.before = s.before
  after : t.after = s.after
  admitted : t.admitted = s.admitted
  inputs : t.inputs = s.inputs

theorem initNext_keeps (nlen kaddr naddr ctr : Word) (s : State) : CommandKeeps s (initNext nlen kaddr naddr ctr s) := by
  unfold initNext
  split <;> exact ⟨rfl, rfl, rfl, rfl⟩

theorem xorNext_keeps (d a len : Word) (s : State) : CommandKeeps s (xorNext d a len s) := ⟨rfl, rfl, rfl, rfl⟩

/-- A command that is no INIT ends in one of three ways. -/
theorem xorCommand_next {command : Instr} {d a len : Word} {s t : State} (h : xorCommand command d a len s = .next t) :
    (s.engine.ready = false ∧ t = respond .notConstructed s) ∨
    (s.engine.ready = true ∧ XorDuties s d a len ∧ t = xorNext d a len s) := by
  rcases xorCommand_cases command d a len s with ⟨hr, he⟩ | ⟨hr, hd, he⟩ | ⟨_, _, he⟩ | ⟨_, _, _, _, he⟩ | ⟨_, _, _, _, _, he⟩ <;>
    rw [he] at h <;> cases h
  · exact .inl ⟨hr, rfl⟩
  · exact .inr ⟨hr, hd, rfl⟩

/-- INIT completes in one of three ways. -/
theorem execInit_next {klen nlen kaddr naddr ctr : Word} {s t : State} (h : execInit klen nlen kaddr naddr ctr s = .next t) :
    (klen ≠ 32#32 ∧ t = respond .wrongKeySize (failConstruction s)) ∨
    (klen = 32#32 ∧ nlen ≠ 8#32 ∧ nlen ≠ 12#32 ∧ t = respond .wrongNonceSize (failConstruction s)) ∨
    (klen = 32#32 ∧ (nlen = 8#32 ∨ nlen = 12#32) ∧ InitDuties s kaddr naddr nlen ∧ t = initNext nlen kaddr naddr ctr s) := by
  rcases execInit_cases klen nlen kaddr naddr ctr s with ⟨hk, he⟩ | ⟨hk, h8, h12, he⟩ | ⟨hk, hn, hd, he⟩ | ⟨_, _, _, he⟩ <;>
    rw [he] at h <;> cases h
  · exact .inl ⟨hk, rfl⟩
  · exact .inr (.inl ⟨hk, h8, h12, rfl⟩)
  · exact .inr (.inr ⟨hk, hn, hd, rfl⟩)

/-- A command ends in a next state or in a model fault recorded with the command itself; it is never refused (R103). -/
theorem exec_cases (i : Instr) (s : State) :
    (∃ t, exec i s = .next t) ∨ ∃ fault, exec i s = .fault fault ∧ faultCommand fault = i := by
  have xor : ∀ command d a len, (∃ t, xorCommand command d a len s = .next t) ∨
      ∃ fault, xorCommand command d a len s = .fault fault ∧ faultCommand fault = command := by
    intro command d a len
    rcases xorCommand_cases command d a len s with ⟨-, h⟩ | ⟨-, -, h⟩ | ⟨-, -, h⟩ | ⟨-, -, -, -, h⟩ | ⟨-, -, -, -, -, h⟩
    · exact .inl ⟨_, h⟩
    · exact .inl ⟨_, h⟩
    · exact .inr ⟨_, h, rfl⟩
    · exact .inr ⟨_, h, rfl⟩
    · exact .inr ⟨_, h, rfl⟩
  cases i with
  | init klen nlen kaddr naddr ctr =>
    rcases execInit_cases klen nlen kaddr naddr ctr s with ⟨-, h⟩ | ⟨-, -, -, h⟩ | ⟨-, -, -, h⟩ | ⟨-, -, -, h⟩
    · exact .inl ⟨_, h⟩
    · exact .inl ⟨_, h⟩
    · exact .inl ⟨_, h⟩
    · exact .inr ⟨_, h, rfl⟩
  | encrypt d a len => exact xor _ d a len
  | decrypt d a len => exact xor _ d a len

/-- Whatever a completed command does, the other engines, the platform and the host's actions stay as they are, the
engine's fault record too, and one result word is delivered. -/
theorem exec_keeps {i : Instr} {s t : State} (h : exec i s = .next t) :
    CommandKeeps s t ∧ t.engine.faulted = s.engine.faulted ∧
      ∃ c, t.engine.results = s.engine.results ++ [resultWord c] := by
  have xor : ∀ {command d a len}, xorCommand command d a len s = .next t →
      CommandKeeps s t ∧ t.engine.faulted = s.engine.faulted ∧
        ∃ c, t.engine.results = s.engine.results ++ [resultWord c] := by
    intro command d a len hx
    rcases xorCommand_next hx with ⟨-, rfl⟩ | ⟨-, -, rfl⟩
    · exact ⟨⟨rfl, rfl, rfl, rfl⟩, rfl, _, rfl⟩
    · exact ⟨xorNext_keeps _ _ _ _, rfl, _, rfl⟩
  cases i with
  | init klen nlen kaddr naddr ctr =>
    rcases execInit_next h with ⟨-, rfl⟩ | ⟨-, -, -, rfl⟩ | ⟨-, -, -, rfl⟩
    · exact ⟨⟨rfl, rfl, rfl, rfl⟩, rfl, _, rfl⟩
    · exact ⟨⟨rfl, rfl, rfl, rfl⟩, rfl, _, rfl⟩
    · exact ⟨initNext_keeps _ _ _ _ _, by simp, .ok, by simp⟩
  | encrypt d a len => exact xor h
  | decrypt d a len => exact xor h

/-- What four words do to the engine they are given to. -/
inductive CommandRuns (w : Words) (s t : State) : Prop where
  | stopped (fault : Fault) (hf : s.engine.faulted = some fault) (ht : t = s)
  | illegal (reason : Illegal) (hf : s.engine.faulted = none) (hw : decode w = .error reason)
      (ht : t = respond .illegalCommand s)
  | completes (i : Instr) (hf : s.engine.faulted = none) (hw : decode w = .ok i) (ht : exec i s = .next t)
  | faults (i : Instr) (fault : Fault) (hf : s.engine.faulted = none) (hw : decode w = .ok i)
      (he : exec i s = .fault fault) (hi : faultCommand fault = i) (ht : t = enterFaulted fault s)

/-- Four words are never refused by an engine, and what they do is one of four things. -/
theorem runWords_cases (w : Words) (s : State) : ∃ t, runWords w s = .next t ∧ CommandRuns w s t := by
  cases hf : s.engine.faulted with
  | some fault => exact ⟨s, by simp [runWords, hf], .stopped fault hf rfl⟩
  | none =>
    cases hw : decode w with
    | error reason => exact ⟨_, by simp only [runWords, hf, hw]; rfl, .illegal reason hf hw rfl⟩
    | ok i =>
      rcases exec_cases i s with ⟨t, ht⟩ | ⟨fault, he, hi⟩
      · exact ⟨t, by simp only [runWords, hf, hw, runCommand, ht], .completes i hf hw ht⟩
      · exact ⟨_, by simp only [runWords, hf, hw, runCommand, he], .faults i fault hf hw he hi rfl⟩

theorem runWords_next {w : Words} {s t : State} (h : runWords w s = .next t) : CommandRuns w s t := by
  obtain ⟨u, hu, hr⟩ := runWords_cases w s
  rw [hu] at h
  cases h
  exact hr

/-- Whatever four words do, the other engines, the platform and the host's actions stay as they are. -/
theorem runWords_keeps {w : Words} {s t : State} (h : runWords w s = .next t) : CommandKeeps s t := by
  cases runWords_next h with
  | stopped _ _ ht => subst ht; exact ⟨rfl, rfl, rfl, rfl⟩
  | illegal _ _ _ ht => subst ht; exact ⟨rfl, rfl, rfl, rfl⟩
  | completes _ _ _ ht => exact (exec_keeps ht).1
  | faults _ _ _ _ _ _ ht => subst ht; exact ⟨rfl, rfl, rfl, rfl⟩

/-! ## Bytes without a value (R111) -/

theorem mem_lostRanges {engines : List Engine} {range : Nat × Nat} :
    range ∈ lostRanges engines ↔
      ∃ e ∈ engines, ∃ fault, e.faulted = some fault ∧ destinationRange (faultCommand fault) = range := by
  simp [lostRanges]

/-- No byte loses its value where no engine has faulted. -/
theorem loseFaulted_of_running {s : State} (h : ∀ e ∈ s.engines, e.faulted = none) : loseFaulted s = s := by
  have : lostRanges s.engines = [] := by
    refine List.eq_nil_iff_forall_not_mem.2 fun r hr => ?_
    obtain ⟨e, he, fault, hf, -⟩ := mem_lostRanges.1 hr
    rw [h e he] at hf
    cases hf
  simp [loseFaulted, this]

/-- What `loseFaulted` does to memory. -/
theorem loseFaulted_mem (s : State) : (loseFaulted s).mem = loseRanges s.draws (lostRanges s.engines) s.mem := by
  unfold loseFaulted
  split
  · rename_i h
    rw [h]
    rfl
  · rfl

theorem loseFaulted_wf {s : State} (h : s.mem.wf) : (loseFaulted s).mem.wf := by
  rw [loseFaulted_mem]
  exact loseRanges_wf h

theorem loseFaulted_read_of_holdsValue {s : State} {a : Nat} (h : holdsValue s a) :
    (loseFaulted s).mem.read a = s.mem.read a := by
  rw [loseFaulted_mem]
  refine loseRanges_read_outside fun r hr => ?_
  obtain ⟨e, he, fault, hf, rfl⟩ := mem_lostRanges.1 hr
  exact h e he fault hf

/-- A byte without a value is the free value of a fresh draw. -/
theorem loseFaulted_read_of_not_holdsValue {s : State} {a : Nat} (hm : s.mem.wf) (ha : a < addrSpace)
    (h : ¬ holdsValue s a) :
    (loseFaulted s).mem.read a = Config.freeByte s.draws a ∧ (loseFaulted s).draws = s.draws + 1 := by
  have hr : ∃ r ∈ lostRanges s.engines, r.1 ≤ a ∧ a < r.1 + r.2 := by
    simp only [holdsValue, not_forall] at h
    obtain ⟨e, he, fault, hf, hout⟩ := h
    exact ⟨_, mem_lostRanges.2 ⟨e, he, fault, hf, rfl⟩, by omega, by omega⟩
  refine ⟨by rw [loseFaulted_mem]; exact loseRanges_read_inside hm ha (.inr hr), ?_⟩
  obtain ⟨r, hr, -⟩ := hr
  unfold loseFaulted
  split
  · rename_i h0
    rw [h0] at hr
    cases hr
  · rfl

theorem loseFaulted_draws_le (s : State) : s.draws ≤ (loseFaulted s).draws := by
  unfold loseFaulted
  split
  · exact le_rfl
  · exact Nat.le_succ _

/-! ## One step -/

/-- What a step that ends in a next state does, before the bytes without a value are drawn afresh. -/
inductive StepRuns (s t : State) : Prop where
  | idle (hi : s.inputs = []) (ht : t = s)
  | issue (k : Nat) (w : Words) (rest : List HostAction) (u : State) (hi : s.inputs = .issue k w :: rest)
      (hf : s.pop.focus k = some u) (ht : runWords w u = .next t)
  | write (addr : Word) (v : Byte) (rest : List HostAction) (hi : s.inputs = .write addr v :: rest)
      (ht : t = hostWrite addr v s.pop)
  | reset (k : Nat) (rest : List HostAction) (u : State) (hi : s.inputs = .reset k :: rest)
      (hf : s.pop.focus k = some u) (ht : t = resetEngine u)

/-- Everything a step can do: one of four things, and then `loseFaulted`. -/
theorem step_next {s t : State} (h : step s = .next t) : ∃ u, StepRuns s u ∧ t = loseFaulted u := by
  have unsettle : ∀ {outcome : Host.Outcome State Fault Refusal}, settle outcome = .next t →
      ∃ u, outcome = .next u ∧ t = loseFaulted u := by
    intro outcome ho
    cases outcome <;> cases ho
    exact ⟨_, rfl, rfl⟩
  unfold step at h
  split at h
  · rename_i hi
    obtain ⟨u, hu, rfl⟩ := unsettle h
    cases hu
    exact ⟨_, .idle hi rfl, rfl⟩
  · rename_i a rest hi
    obtain ⟨u, hu, rfl⟩ := unsettle h
    refine ⟨u, ?_, rfl⟩
    cases a with
    | issue k w =>
      simp only [hostMove] at hu
      split at hu
      · cases hu
      · rename_i v hv
        exact .issue k w rest v hi hv hu
    | write addr v =>
      simp only [hostMove] at hu
      cases hu
      exact .write addr v rest hi rfl
    | reset k =>
      simp only [hostMove] at hu
      split at hu
      · cases hu
      · rename_i v hv
        cases hu
        exact .reset k rest v hi hv rfl

/-- The number of free values used never goes down. -/
theorem exec_draws_le {i : Instr} {s t : State} (h : exec i s = .next t) : s.draws ≤ t.draws := by
  have xor : ∀ {command d a len}, xorCommand command d a len s = .next t → s.draws ≤ t.draws := by
    intro command d a len hx
    rcases xorCommand_next hx with ⟨-, rfl⟩ | ⟨-, -, rfl⟩ <;> exact le_rfl
  cases i with
  | init klen nlen kaddr naddr ctr =>
    rcases execInit_next h with ⟨-, rfl⟩ | ⟨-, -, -, rfl⟩ | ⟨-, -, -, rfl⟩
    · simp
    · simp
    · unfold initNext; split <;> exact le_rfl
  | encrypt d a len => exact xor h
  | decrypt d a len => exact xor h

end Sys2Proof.Machine
end

