-- ==== Sys2Proof/Tests/Slice0.lean ====
section
/-! SUPPORT. The model's own tests: expected values from 95_test_vectors.md, and for every obligation with hypotheses a
state and operands that meet them all. -/

namespace Sys2Proof.Tests

open Sys2Proof Sys2Proof.Machine

/-! ## Small states -/

/-- The regions of a platform that admits everything. -/
def everything : List Region := [⟨0, addrSpace, true, true⟩]

/-- One engine in state `S`, constructed or not, on a platform with the given regions. -/
def testState (S : Words16) (ready : Bool) (layout : Layout) (mem : Memory) (admitted : List Region) : State :=
  { before := [], engine := ⟨S, ready, layout, [], none⟩, after := [], mem := mem, admitted := admitted, inputs := [], draws := 0 }

/-- Sixteen words of 0. -/
def zeroWords : Words16 := #v[0, 0, 0, 0, 0, 0, 0, 0, 0, 0, 0, 0, 0, 0, 0, 0]

/-- The state of an all-zero key and nonce, with `S[12]` and `S[13]` as given. -/
def zeroKey (w12 w13 : Word) : Words16 :=
  #v[0x61707865, 0x3320646e, 0x79622d32, 0x6b206574, 0, 0, 0, 0, 0, 0, 0, 0, w12, w13, 0, 0]

/-- A constructed engine of the all-zero key. -/
def readyState : State := testState (zeroKey 0 0) true .ietf [] everything

/-- An engine that holds no instance. -/
def freshState : State := testState zeroWords false .ref [] everything

/-- A constructed engine on a platform that admits nothing. -/
def closedState : State := testState (zeroKey 0 0) true .ietf [] []

/-- A second engine, constructed and running. -/
def secondEngine : Engine := ⟨zeroKey 5 0, true, .ref, [], none⟩

/-- Two engines and a list of host actions. -/
def twoEngines (inputs : List HostAction) : State :=
  { readyState with after := [secondEngine], inputs := inputs }

/-- A command whose source and destination overlap, as words and decoded. -/
def overlapWords : Words := ⟨2, 0x2010, 0x2000, 32⟩
def overlap : Instr := .encrypt 0x2010 0x2000 32

/-- An engine whose run an overlap ended. -/
def faultedEngine : Engine := ⟨zeroWords, true, .ref, [0], some (.overlapUnmodelled overlap)⟩

/-- A running engine and a faulted one. -/
def faultedSecond (inputs : List HostAction) : State := { readyState with after := [faultedEngine], inputs := inputs }

/-- On `everything`, every range inside the address space is admitted. -/
theorem admitted_everywhere {s : State} (hs : s.admitted = everything) {a n : Nat} (h : a + n ≤ addrSpace) (kind : Access) :
    rangeAdmitted s a n kind := by
  intro i hi
  have h1 : a + i < 4294967296 := by simp only [addrSpace] at h; omega
  cases kind <;> simp [State.admits, hs, everything, Region.admits, addrSpace, h1]

/-- The duties of an ENCRYPT on `everything`. -/
theorem duties_everywhere {s : State} (hs : s.admitted = everything) {d a n : Word} (ha : a.toNat + n.toNat ≤ 2 ^ 32)
    (hd : d.toNat + n.toNat ≤ 2 ^ 32) (ho : equalOrDisjoint d a n) : XorDuties s d a n :=
  ⟨.inr ha, .inr hd, ho, admitted_everywhere hs ha _, admitted_everywhere hs hd _⟩

/-- The duties of an INIT on `everything`. -/
theorem init_duties_everywhere {s : State} (hs : s.admitted = everything) {ka na n : Word} (hk : ka.toNat + 32 ≤ 2 ^ 32)
    (hn : na.toNat + n.toNat ≤ 2 ^ 32) : InitDuties s ka na n :=
  ⟨hk, hn, admitted_everywhere hs hk _, admitted_everywhere hs hn _⟩

/-! ## WellFormed: an ill-formed term for each check -/

theorem test_wellFormed_refuses_klen_256 : WellFormed (.init 256 12 0 0 0) = false := by decide
theorem test_wellFormed_refuses_nlen_256 : WellFormed (.init 32 256 0 0 0) = false := by decide

/-! ## Decoding: the words of 95_test_vectors.md §2.2, each header written out from its encoding -/

/-- V-DEC-1: NLEN = 0x0C, KLEN = 0x20, OP = 0x01. -/
theorem test_decode_init : decode ⟨0b00000000000011000010000000000001, 0x1000, 0x1020, 7⟩ = .ok (.init 32 12 0x1000 0x1020 7) := by
  decide
/-- V-DEC-9: every length bit set. -/
theorem test_decode_init_255 : decode ⟨0b00000000111111111111111100000001, 1, 2, 3⟩ = .ok (.init 255 255 1 2 3) := by decide
/-- V-DEC-3. -/
theorem test_decode_encrypt : decode ⟨0b00000000000000000000000000000010, 0x3000, 0x2000, 0x46⟩ = .ok (.encrypt 0x3000 0x2000 70) := by
  decide
/-- V-DEC-4. -/
theorem test_decode_decrypt : decode ⟨0b00000000000000000000000000000011, 0x4000, 0x3000, 0x46⟩ = .ok (.decrypt 0x4000 0x3000 70) := by
  decide
/-- V-DEC-5: OP = 0x00 is reserved. -/
theorem test_decode_zero : decode ⟨0, 0, 0, 0⟩ = .error .reservedOpcode := by decide
/-- V-DEC-6. -/
theorem test_decode_four : decode ⟨4, 0, 0, 0⟩ = .error .reservedOpcode := by decide
/-- V-DEC-7: INIT with `W0[31:24] ≠ 0`. -/
theorem test_decode_init_reserved : decode ⟨0x010C2001, 0, 0, 0⟩ = .error .reservedBits := by decide
/-- V-DEC-8: ENCRYPT with `W0[31:8] ≠ 0`. -/
theorem test_decode_encrypt_reserved : decode ⟨0x00000102, 0, 0, 0⟩ = .error .reservedBits := by decide
/-- The table's row INIT with all operands 0, as the host lays it out. -/
theorem test_decodeTableWord : decodeTableWord 32 0x000C2001 = some (.init 32 12 0 0 0) := by decide

/-! ## The assembler (R61, R62; the texts of programs P1, P3 and P4) -/

theorem test_parse_init : parseLine ['I', 'N', 'I', 'T', ' ', '3', '2', ',', '1', '2', ',', '0', 'x', '1', '0', ',', '7', ',', '0', ';', 'c'] =
    .line (.init 32 12 16 7 0) := by decide
theorem test_parse_cmd : parseLine ['.', 'c', 'm', 'd', ' ', '4', ',', ' ', '0', ',', ' ', '0', ',', '0'] = .line (.raw 4 0 0 0) := by
  decide
/-- Mnemonics are upper case. -/
theorem test_parse_lower_case : parseLine ['i', 'n', 'i', 't', ' ', '1'] = .error := by decide
/-- P3: `INIT.IETF 0x1000, 0x1020, 1`. -/
theorem test_assemble_ietf : assemble (.initIetf 0x1000 0x1020 1) = some ⟨0x000C2001, 0x1000, 0x1020, 1⟩ := by decide
/-- An operand out of range is not truncated. -/
theorem test_assemble_out_of_range : assemble (.init 256 12 0 0 0) = none := by decide

/-! ## Internal operations -/

/-- V-ARI-5. -/
theorem test_rotl_7 : rotl32 0x12345678 7 = 0x1a2b3c09 := by decide
/-- V-ARI-7: "expa". -/
theorem test_le32 : le32 0x65 0x78 0x70 0x61 = 0x61707865 := by decide
/-- V-ARI-8. -/
theorem test_bytesLe32 : bytesLe32 0xade0b876 = [0x76, 0xb8, 0xe0, 0xad] := by decide

/-- V-QR-3. -/
theorem test_qrx :
    qrx 2 7 8 13 #v[0x879531e0, 0xc5ecf37d, 0x516461b1, 0xc9a62f8a, 0x44c20ef3, 0x3390af7f, 0xd9fc690b, 0x2a5f714c,
      0x53372767, 0xb00a5631, 0x974c541a, 0x359e9963, 0x5c971061, 0x3d631689, 0x2098d9d6, 0x91dbd320] =
    #v[0x879531e0, 0xc5ecf37d, 0xbdb886dc, 0xc9a62f8a, 0x44c20ef3, 0x3390af7f, 0xd9fc690b, 0xcfacafd2,
      0xe46bea80, 0xb00a5631, 0x974c541a, 0x359e9963, 0x5c971061, 0xccc07c79, 0x2098d9d6, 0x91dbd320] := by
  decide +kernel

/-- V-RND-2: one double round. -/
theorem test_doubleRound :
    doubleRound (zeroKey 0 0) =
    #v[0xe45fd249, 0x1bb820a6, 0xe31a88ea, 0xe667a9fe, 0x2a3bf673, 0x86bf4098, 0x460b500a, 0xfa169886,
      0x538dca0e, 0x0c439641, 0x00fa16bc, 0x8a08812a, 0x6bbf8b09, 0xc33013d6, 0xbb9f9849, 0x87c62165] := by
  decide +kernel

/-- V-BLK-1: the keystream block of the all-zero key, nonce and counter. -/
theorem test_blockOf_zero :
    blockOf (zeroKey 0 0) =
    [0x76, 0xb8, 0xe0, 0xad, 0xa0, 0xf1, 0x3d, 0x90, 0x40, 0x5d, 0x6a, 0xe5, 0x53, 0x86, 0xbd, 0x28,
      0xbd, 0xd2, 0x19, 0xb8, 0xa0, 0x8d, 0xed, 0x1a, 0xa8, 0x36, 0xef, 0xcc, 0x8b, 0x77, 0x0d, 0xc7,
      0xda, 0x41, 0x59, 0x7c, 0x51, 0x57, 0x48, 0x8d, 0x77, 0x24, 0xe0, 0x3f, 0xb8, 0xd8, 0x4a, 0x37,
      0x6a, 0x43, 0xb8, 0xf4, 0x15, 0x18, 0xa1, 0x1c, 0xc3, 0x87, 0xb6, 0x69, 0xb2, 0xee, 0x65, 0x86] := by
  decide +kernel

/-- V-BLK-3: the block of the state of V-INIT-1. -/
theorem test_blockOf_counting_key :
    blockOf #v[0x61707865, 0x3320646e, 0x79622d32, 0x6b206574, 0x03020100, 0x07060504, 0x0b0a0908, 0x0f0e0d0c,
      0x13121110, 0x17161514, 0x1b1a1918, 0x1f1e1d1c, 0x00000001, 0x09000000, 0x4a000000, 0x00000000] =
    [0x10, 0xf1, 0xe7, 0xe4, 0xd1, 0x3b, 0x59, 0x15, 0x50, 0x0f, 0xdd, 0x1f, 0xa3, 0x20, 0x71, 0xc4,
      0xc7, 0xd1, 0xf4, 0xc7, 0x33, 0xc0, 0x68, 0x03, 0x04, 0x22, 0xaa, 0x9a, 0xc3, 0xd4, 0x6c, 0x4e,
      0xd2, 0x82, 0x64, 0x46, 0x07, 0x9f, 0xaa, 0x09, 0x14, 0xc2, 0xd7, 0x05, 0xd9, 0x8b, 0x02, 0xa2,
      0xb5, 0x12, 0x9c, 0xd1, 0xde, 0x16, 0x4e, 0xb9, 0xcb, 0xd0, 0x83, 0xe8, 0xa2, 0x50, 0x3c, 0x4e] := by
  decide +kernel

/-- V-ADV-4: both counter words wrap and the carry is dropped. -/
theorem test_advance_wraps : advance (zeroKey 0xffffffff 0xffffffff) = zeroKey 0 0 := by decide +kernel
/-- V-ADV-6: under IETF the carry changes the nonce word. -/
theorem test_advance_nonce : advance (zeroKey 0xffffffff 0x09000000) = zeroKey 0 0x09000001 := by decide +kernel

/-! ## The commands, one step each -/

/-- Host memory with the key 00 01 ... 1f at 0x1000 and the nonce 00 00 00 09 00 00 00 4a 00 00 00 00 at 0x1020. -/
def keyMemory : Memory :=
  (List.range 31).map (fun i => (0x1001 + i, BitVec.ofNat 8 (i + 1))) ++ [(0x1023, 0x09), (0x1027, 0x4a)]

/-- V-INIT-1. -/
theorem test_init_ietf :
    (match exec (.init 32 12 0x1000 0x1020 1) (testState zeroWords false .ref keyMemory everything) with
      | .next t => (t.engine.S.toList, t.engine.ready, t.engine.layout, t.engine.results)
      | _ => ([], false, .ref, [])) =
    ([0x61707865, 0x3320646e, 0x79622d32, 0x6b206574, 0x03020100, 0x07060504, 0x0b0a0908, 0x0f0e0d0c,
      0x13121110, 0x17161514, 0x1b1a1918, 0x1f1e1d1c, 0x00000001, 0x09000000, 0x4a000000, 0x00000000],
      true, .ietf, [0]) := by
  decide +kernel

/-- V-INIT-4: a key range one byte too high faults. -/
theorem test_init_top_of_memory :
    (match exec (.init 32 12 0xFFFFFFE1 0x1000 0) freshState with
      | .fault f => some f
      | _ => none) = some (.bufferFault (.init 32 12 0xFFFFFFE1 0x1000 0)) := by
  decide +kernel

/-- P5, command 2: 65 bytes across a counter wrap; the 65th byte (0x12) comes from the block with the changed nonce. -/
theorem test_encrypt_wrap :
    (match exec (.encrypt 0x3000 0x2000 65)
        (testState #v[0x61707865, 0x3320646e, 0x79622d32, 0x6b206574, 0, 0, 0, 0, 0, 0, 0, 0, 0xffffffff, 1, 2, 3] true .ietf
          [] everything) with
      | .next t => (t.engine.S.toList.drop 12, [t.mem.read 0x3000, t.mem.read 0x303f, t.mem.read 0x3040, t.mem.read 0x3041],
          t.engine.results)
      | _ => ([], [], [])) =
    ([1, 2, 2, 3], [0xc3, 0x1e, 0x12, 0x00], [0]) := by
  decide +kernel

/-- V-STR-2: ranges that overlap at different addresses. -/
theorem test_encrypt_overlap :
    (match exec (.encrypt 0x2010 0x2000 32) readyState with
      | .fault f => some f
      | _ => none) = some (.overlapUnmodelled (.encrypt 0x2010 0x2000 32)) := by
  decide +kernel

/-- P2, command 4, on the first six ciphertext bytes: 1a 9a a0 d7 bf 6b decrypts to 00 01 02 03 04 05. -/
theorem test_decrypt :
    (match exec (.decrypt 0x4000 0x3000 6)
        (testState #v[0x61707865, 0x3320646e, 0x79622d32, 0x6b206574, 0x03020100, 0x07060504, 0x0b0a0908, 0x0f0e0d0c,
            0x13121110, 0x17161514, 0x1b1a1918, 0x1f1e1d1c, 7, 0, 0x4a000000, 0] true .ietf
          [(0x3000, 0x1a), (0x3001, 0x9a), (0x3002, 0xa0), (0x3003, 0xd7), (0x3004, 0xbf), (0x3005, 0x6b)] everything) with
      | .next t => bytesAt t.mem 0x4000 7
      | _ => []) =
    [0, 1, 2, 3, 4, 5, 0] := by
  decide +kernel

/-- P4, command 11: DECRYPT without an instance is NOT_CONSTRUCTED. -/
theorem test_decrypt_not_constructed :
    (match exec (.decrypt 0x3000 0x2000 16) freshState with
      | .next t => t.engine.results
      | _ => []) = [0x04] := by
  decide +kernel

/-- P4, command 5, as the first step after reset: a reserved opcode is answered, not refused. -/
theorem test_step_illegal :
    (match step (State.reset.withFetchWord 32 4) with
      | .next t => t.engine.results
      | _ => []) = [0x03] := by
  decide +kernel

/-- The first step after reset runs a placed INIT (P4, command 2: WRONG_KEY_SIZE). -/
theorem test_step_init :
    (match step (State.reset.withFetchWord 32 0x000C1001) with
      | .next t => t.engine.results
      | _ => []) = [0x01] := by
  decide +kernel

/-! ## Witnesses: for every obligation with hypotheses, a state and operands that meet all of them together

A statement with several clauses has a witness for each, at a boundary of its range. -/

/-- Four words of a command with header `w0` and all operands 0. -/
def header (w0 : Word) : Words := ⟨w0, 0, 0, 0⟩

/-- `readyState` with one action of the host pending. -/
def pending (a : HostAction) : State := { readyState with inputs := [a] }

/-- A constructed engine whose counter word is about to wrap. -/
def wrapState : State := testState (zeroKey 0xffffffff 0x09000000) true .ietf [] everything

/-- A constructed engine on a platform where everything may be read and nothing written. -/
def readOnlyState : State := testState (zeroKey 0 0) true .ietf [] [⟨0, addrSpace, true, false⟩]

/-- The second and last word of eight bytes. -/
theorem witness_PackingIsLittleEndian :
    ([1, 2, 3, 4, 5, 6, 7, 8] : List Byte)[4 * 1]? = some 5 ∧ ([1, 2, 3, 4, 5, 6, 7, 8] : List Byte)[4 * 1 + 1]? = some 6 ∧
    ([1, 2, 3, 4, 5, 6, 7, 8] : List Byte)[4 * 1 + 2]? = some 7 ∧ ([1, 2, 3, 4, 5, 6, 7, 8] : List Byte)[4 * 1 + 3]? = some 8 := by
  decide

theorem witness_RotateMovesEveryBit :
    (0 < 1 ∧ 1 < 32 ∧ 0 < 32) ∧ (0 < 31 ∧ 31 < 32 ∧ 31 < 32) := by decide

/-- The header is no command's: neither case of the fourth clause holds. -/
def noCommand (w : Words) : Prop :=
  ¬ (w.w0.toNat % 2 ^ 8 = 1 ∧ w.w0.toNat / 2 ^ 24 = 0) ∧
    ¬ ((w.w0.toNat % 2 ^ 8 = 2 ∨ w.w0.toNat % 2 ^ 8 = 3) ∧ w.w0.toNat / 2 ^ 8 = 0)

theorem witness_DecoderReadsHeaderFields :
    ((header 0x00FFFF01).w0.toNat % 2 ^ 8 = 1 ∧ (header 0x00FFFF01).w0.toNat / 2 ^ 24 = 0) ∧
    ((header 2).w0.toNat % 2 ^ 8 = 2 ∧ (header 2).w0.toNat / 2 ^ 8 = 0) ∧
    ((header 3).w0.toNat % 2 ^ 8 = 3 ∧ (header 3).w0.toNat / 2 ^ 8 = 0) ∧
    noCommand (header 0) ∧ noCommand (header 4) ∧ noCommand (header 0x01000001) ∧ noCommand (header 0x102) ∧
    noCommand (header 0x80000003) := by
  simp [noCommand, header]

theorem witness_DecodeOfEncode :
    WellFormed (.init 255 255 0xffffffff 0xffffffff 0xffffffff) = true ∧ WellFormed (.init 0 0 0 0 0) = true ∧
    WellFormed (.encrypt 0xffffffff 0 0xffffffff) = true ∧ WellFormed (.decrypt 0 0xffffffff 0) = true := by decide

theorem witness_EncodeOfDecode :
    decode (header 0x00FFFF01) = .ok (.init 255 255 0 0 0) ∧ decode (header 2) = .ok (.encrypt 0 0 0) ∧
    decode (header 3) = .ok (.decrypt 0 0 0) := by decide

/-- Operands at and one past the end of each range. -/
theorem witness_AssemblerEncodesOrRejects :
    (255 ≤ 255 ∧ 255 ≤ 255 ∧ 2 ^ 32 - 1 < 2 ^ 32 ∧ 2 ^ 32 - 1 < 2 ^ 32 ∧ 2 ^ 32 - 1 < 2 ^ 32) ∧
    ¬ (256 ≤ 255 ∧ 0 ≤ 255 ∧ 0 < 2 ^ 32 ∧ 0 < 2 ^ 32 ∧ 0 < 2 ^ 32) ∧
    ¬ (0 ≤ 255 ∧ 0 ≤ 255 ∧ 0 < 2 ^ 32 ∧ 0 < 2 ^ 32 ∧ 2 ^ 32 < 2 ^ 32) ∧
    (2 ^ 32 - 1 < 2 ^ 32 ∧ 0 < 2 ^ 32 ∧ 2 ^ 32 - 1 < 2 ^ 32) ∧ ¬ (0 < 2 ^ 32 ∧ 0 < 2 ^ 32 ∧ 2 ^ 32 < 2 ^ 32) ∧
    (0 < 2 ^ 32 ∧ 0 < 2 ^ 32 ∧ 0 < 2 ^ 32 ∧ 2 ^ 32 - 1 < 2 ^ 32) ∧
    ¬ (2 ^ 32 < 2 ^ 32 ∧ 0 < 2 ^ 32 ∧ 0 < 2 ^ 32 ∧ 0 < 2 ^ 32) := by decide

/-- The last of two engines, and a command for it. -/
theorem witness_StepRunsDecodedCommand :
    (twoEngines [.issue 1 (header 2)]).inputs = [.issue 1 (header 2)] ∧
    (twoEngines [.issue 1 (header 2)]).engines[1]? = some secondEngine ∧ secondEngine.faulted = none ∧
    decode (header 2) = .ok (.encrypt 0 0 0) := by decide

theorem witness_PlacedInstructionRunsNext :
    State.reset.engine.faulted = none ∧ decodeTableWord 32 0x000C2001 = some (.init 32 12 0 0 0) ∧
    decodeTableWord 128 (2 + 2 ^ 96 * (2 ^ 32 - 1)) = some (.encrypt 0 0 0xffffffff) ∧
    decodeTableWord 32 3 = some (.decrypt 0 0 0) := ⟨rfl, by decide, by decide, by decide⟩

/-- The idle clause, and a refused step: engine 2 where there are two engines. -/
theorem witness_IdleOrRefusedOnlyByHost :
    readyState.inputs = [] ∧ (∀ e ∈ readyState.engines, e.faulted = none) ∧
    step (twoEngines [.reset 2]) = .refused (.noSuchEngine 2) ∧
    step (twoEngines [.issue 2 (header 2)]) = .refused (.noSuchEngine 2) := ⟨rfl, by decide, rfl, rfl⟩

/-- The last of two engines, and for each of the four cases a header. -/
theorem witness_ReservedEncodingsAnswered :
    (twoEngines [.issue 1 (header 0)]).inputs = [.issue 1 (header 0)] ∧
    (twoEngines [.issue 1 (header 0)]).engines[1]? = some secondEngine ∧ secondEngine.faulted = none ∧ (header 0).w0.toNat % 2 ^ 8 = 0 ∧
    4 ≤ (header 4).w0.toNat % 2 ^ 8 ∧ 4 ≤ (header 0xff).w0.toNat % 2 ^ 8 ∧
    ((header 0x01000001).w0.toNat % 2 ^ 8 = 1 ∧ (header 0x01000001).w0.toNat / 2 ^ 24 ≠ 0) ∧
    ((header 0x102).w0.toNat % 2 ^ 8 = 2 ∧ (header 0x102).w0.toNat / 2 ^ 8 ≠ 0) ∧
    ((header 0x80000003).w0.toNat % 2 ^ 8 = 3 ∧ (header 0x80000003).w0.toNat / 2 ^ 8 ≠ 0) := by decide

theorem witness_ResetEventClearsEngine :
    (twoEngines [.reset 1]).inputs = [.reset 1] ∧ (twoEngines [.reset 1]).engines[1]? = some secondEngine ∧
    secondEngine.faulted = none := by decide

/-- Every byte has a value where no engine has faulted. -/
theorem holdsValue_of_running {s : State} (h : ∀ e ∈ s.engines, e.faulted = none) (a : Nat) : holdsValue s a := by
  intro e he fault hf
  rw [h e he] at hf
  cases hf

/-- The byte written, the one below it, and no engine faulted. -/
theorem witness_HostWriteChangesOneByte :
    (pending (.write 0xffffffff 7)).inputs = [.write 0xffffffff 7] ∧ (pending (.write 0xffffffff 7)).mem.wf ∧
    holdsValue (pending (.write 0xffffffff 7)) 0xffffffff ∧ holdsValue (pending (.write 0xffffffff 7)) 0xfffffffe ∧
    ∀ e ∈ (pending (.write 0xffffffff 7)).engines, e.faulted = none :=
  ⟨rfl, by decide, holdsValue_of_running (by decide) _, holdsValue_of_running (by decide) _, by decide⟩

theorem witness_WrongKeySizeFailsFirst : (16 : Word) ≠ 32#32 ∧ (31 : Word) ≠ 32#32 ∧ (33 : Word) ≠ 32#32 := by decide

theorem witness_WrongNonceSizeFails :
    ((10 : Word) ≠ 8#32 ∧ (10 : Word) ≠ 12#32) ∧ (255 : Word) ≠ 8#32 ∧ (255 : Word) ≠ 12#32 := by decide

/-- The key ends at the top of the address space. -/
theorem witness_InitBuildsReferenceLayout : InitDuties freshState 0xFFFFFFE0 0xFFFFFFF8 8 :=
  init_duties_everywhere rfl (by decide) (by decide)

theorem witness_InitBuildsIetfLayout : InitDuties readyState 0xFFFFFFE0 0xFFFFFFF4 12 :=
  init_duties_everywhere rfl (by decide) (by decide)

theorem witness_InitSetsSigmaConstants :
    ((8 : Word) = 8#32 ∧ InitDuties freshState 0 0 8) ∧ (12 : Word) = 12#32 ∧ InitDuties freshState 0 0 12 :=
  ⟨⟨rfl, init_duties_everywhere rfl (by decide) (by decide)⟩, rfl, init_duties_everywhere rfl (by decide) (by decide)⟩

theorem witness_InitOfValidSizesSucceeds :
    ((8 : Word) = 8#32 ∧ InitDuties freshState 0xFFFFFFE0 0 8) ∧ (12 : Word) = 12#32 ∧ InitDuties readyState 0 0xFFFFFFF4 12 :=
  ⟨⟨rfl, init_duties_everywhere rfl (by decide) (by decide)⟩, rfl, init_duties_everywhere rfl (by decide) (by decide)⟩

/-- Each clause: the key range, the nonce range, a key byte, a nonce byte. -/
theorem witness_InitBadRangeFaults :
    2 ^ 32 < (0xFFFFFFE1 : Word).toNat + 32 ∧ 2 ^ 32 < (0xFFFFFFF9 : Word).toNat + (8 : Word).toNat ∧
    (∃ i < 32, closedState.admits ((0 : Word).toNat + i) .read = false) ∧
    ∃ i < (12 : Word).toNat, (testState zeroWords false .ref [] [⟨0, 32, true, true⟩]).admits ((21 : Word).toNat + i) .read = false :=
  ⟨by decide, by decide, ⟨31, by decide, by decide⟩, ⟨11, by decide, by decide⟩⟩

/-- A machine that holds no instance beside one that does, and INITs of both kinds. -/
theorem witness_InitForgetsOldInstance :
    freshState = { readyState with engine := { readyState.engine with S := zeroWords, ready := false, layout := .ref } } ∧
    ((32 : Word) = 32#32 ∧ (12 : Word) = 12#32) ∧ (16 : Word) ≠ 32#32 ∧ (10 : Word) ≠ 8#32 ∧ (10 : Word) ≠ 12#32 := by decide

theorem witness_FailedInitDiscardsInstance :
    (16 : Word) ≠ 32#32 ∧ (10 : Word) ≠ 8#32 ∧ (10 : Word) ≠ 12#32 := by decide

theorem witness_QrxWritesFourWords :
    ([2, 7, 8, 13] : List (Fin 16)).Nodup ∧ ([15, 14, 1, 0] : List (Fin 16)).Nodup ∧
    (3 : Fin 16) ∉ ([2, 7, 8, 13] : List (Fin 16)) := by decide

theorem witness_RoundLanesAreIndependent :
    ([(3, 7, 11, 15), (0, 4, 8, 12), (2, 6, 10, 14), (1, 5, 9, 13)] : List (Fin 16 × Fin 16 × Fin 16 × Fin 16)).Perm
      [(0, 4, 8, 12), (1, 5, 9, 13), (2, 6, 10, 14), (3, 7, 11, 15)] ∧
    ([(3, 4, 9, 14), (2, 7, 8, 13), (1, 6, 11, 12), (0, 5, 10, 15)] : List (Fin 16 × Fin 16 × Fin 16 × Fin 16)).Perm
      [(0, 5, 10, 15), (1, 6, 11, 12), (2, 7, 8, 13), (3, 4, 9, 14)] := by decide

theorem witness_AdvanceWritesCounterWords :
    (zeroKey 0xffffffff 0xffffffff)[12] = 0xffffffff#32 ∧ (zeroKey 0xfffffffe 0)[12] ≠ 0xffffffff#32 := by decide

theorem init_completes (ctr : Word) :
    exec (.init 32#32 8#32 0 0 ctr) readyState = .next (initNext 8#32 0 0 ctr readyState) :=
  (exec_init ..).trans (execInit_of_duties ctr (.inl rfl) (init_duties_everywhere rfl (by decide) (by decide)))

theorem xor_completes {d a n : Word} (h : XorDuties readyState d a n) :
    exec (.encrypt d a n) readyState = .next (xorNext d a n readyState) ∧
    exec (.decrypt d a n) readyState = .next (xorNext d a n readyState) :=
  ⟨(exec_encrypt ..).trans (xorCommand_of_duties rfl h), (exec_decrypt ..).trans (xorCommand_of_duties rfl h)⟩

theorem witness_ReferenceCounterCounts : ∃ t, exec (.init 32#32 8#32 0 0 0xffffffff) readyState = .next t :=
  ⟨_, init_completes _⟩

/-- The last block with the nonce intact under CTR = 0. -/
theorem witness_IetfBlockBudget : 2 ^ 32 - 1 < 2 ^ 32 - (zeroKey 0 0)[12].toNat ∧ 0 < 2 ^ 32 - (zeroKey 0xffffffff 0)[12].toNat := by
  decide

theorem witness_NotConstructedChangesNothing : freshState.engine.ready = false := rfl

theorem witness_ZeroLengthChangesNothing : closedState.engine.ready = true := rfl

/-- Disjoint and adjacent, in place up to the top of the address space, and empty. -/
theorem witness_StreamXorClosedForm :
    readyState.engine.ready = true ∧ readyState.mem.wf ∧ XorDuties readyState 65 0 65 ∧
    XorDuties readyState 0xFFFFFF00 0xFFFFFF00 0x100 ∧ XorDuties readyState 0xFFFFFFFF 0 0 :=
  ⟨rfl, by decide, duties_everywhere rfl (by decide) (by decide) (.inr (.inr (.inl (by decide)))),
    duties_everywhere rfl (by decide) (by decide) (.inr (.inl rfl)), duties_everywhere rfl (by decide) (by decide) (.inl rfl)⟩

theorem witness_InPlaceXor :
    readyState.engine.ready = true ∧ readyState.mem.wf ∧ (0xFFFFFF00 : Word).toNat + (0x100 : Word).toNat ≤ 2 ^ 32 ∧
    rangeAdmitted readyState (0xFFFFFF00 : Word).toNat (0x100 : Word).toNat .read ∧
    rangeAdmitted readyState (0xFFFFFF00 : Word).toNat (0x100 : Word).toNat .write :=
  ⟨rfl, by decide, by decide, admitted_everywhere rfl (by decide) _, admitted_everywhere rfl (by decide) _⟩

/-- A wrap inside a command of two blocks. -/
theorem witness_IetfCarryChangesNonceWord :
    wrapState.engine.ready = true ∧ wrapState.engine.layout = .ietf ∧ XorDuties wrapState 0x3000 0x2000 65 :=
  ⟨rfl, rfl, duties_everywhere rfl (by decide) (by decide) (.inr (.inr (.inl (by decide))))⟩

/-- Source or destination one byte too high. -/
theorem witness_RangePastTopFaults :
    readyState.engine.ready = true ∧ 0 < (2 : Word).toNat ∧ 2 ^ 32 < (0xFFFFFFFF : Word).toNat + (2 : Word).toNat ∧
    ¬ 2 ^ 32 < (0 : Word).toNat + (2 : Word).toNat := ⟨rfl, by decide, by decide, by decide⟩

/-- The last byte of the source is the first of the destination. -/
theorem witness_PartialOverlapFaults :
    readyState.engine.ready = true ∧ 0 < (32 : Word).toNat ∧ (0x2000 : Word).toNat + (32 : Word).toNat ≤ 2 ^ 32 ∧
    (0x201f : Word).toNat + (32 : Word).toNat ≤ 2 ^ 32 ∧ (0x2000 : Word) ≠ 0x201f ∧
    ∃ a : Nat, (0x2000 : Word).toNat ≤ a ∧ a < (0x2000 : Word).toNat + (32 : Word).toNat ∧ (0x201f : Word).toNat ≤ a ∧
      a < (0x201f : Word).toNat + (32 : Word).toNat :=
  ⟨rfl, by decide, by decide, by decide, by decide, 0x201f, by decide⟩

/-- A source byte that may not be read; a destination byte that may not be written, disjoint and in place. -/
theorem witness_UnadmittedByteFaults :
    closedState.engine.ready = true ∧ readOnlyState.engine.ready = true ∧ 7 < (8 : Word).toNat ∧
    (0 : Word).toNat + (8 : Word).toNat ≤ 2 ^ 32 ∧ (0 : Word).toNat + (8 : Word).toNat ≤ (8 : Word).toNat ∧
    closedState.admits ((0 : Word).toNat + 7) .read = false ∧ readOnlyState.admits ((0 : Word).toNat + 7) .read = true ∧
    readOnlyState.admits ((8 : Word).toNat + 7) .write = false := by decide

/-- A command of 6 bytes, then one that starts where the first one ended; either may be either command. -/
theorem witness_NextCommandStartsNextBlock :
    (Instr.decrypt 0x3000 0x2000 6 = .encrypt 0x3000 0x2000 6 ∨ Instr.decrypt 0x3000 0x2000 6 = .decrypt 0x3000 0x2000 6) ∧
    (Instr.encrypt 0x3006 0x2006 6 = .encrypt 0x3006 0x2006 6 ∨ Instr.encrypt 0x3006 0x2006 6 = .decrypt 0x3006 0x2006 6) ∧
    readyState.engine.ready = true ∧ readyState.mem.wf ∧ XorDuties readyState 0x3000 0x2000 6 ∧
    XorDuties readyState 0x3006 0x2006 6 :=
  ⟨.inr rfl, .inl rfl, rfl, by decide, duties_everywhere rfl (by decide) (by decide) (.inr (.inr (.inl (by decide)))),
    duties_everywhere rfl (by decide) (by decide) (.inr (.inr (.inl (by decide))))⟩

theorem witness_SplitAtBlockBoundary :
    readyState.engine.ready = true ∧ readyState.mem.wf ∧ (64 : Word).toNat % 64 = 0 ∧
    (64 : Word).toNat + (6 : Word).toNat < 2 ^ 32 ∧ XorDuties readyState 0x3000 0x2000 (64 + 6) :=
  ⟨rfl, by decide, by decide, by decide, duties_everywhere rfl (by decide) (by decide) (.inr (.inr (.inl (by decide))))⟩

/-- Key just below the ciphertext, nonce just above it. -/
theorem witness_EncryptThenDecryptRoundTrip :
    (12 : Word) = 12#32 ∧ freshState.mem.wf ∧ InitDuties freshState 0x2FE0 0x3046 12 ∧ XorDuties freshState 0x3000 0x2000 70 ∧
    XorDuties freshState 0x4000 0x3000 70 ∧
    (∀ i < 32, (0x2FE0 : Word).toNat + i < (0x3000 : Word).toNat ∨
      (0x3000 : Word).toNat + (70 : Word).toNat ≤ (0x2FE0 : Word).toNat + i) ∧
    ∀ i < (12 : Word).toNat, (0x3046 : Word).toNat + i < (0x3000 : Word).toNat ∨
      (0x3000 : Word).toNat + (70 : Word).toNat ≤ (0x3046 : Word).toNat + i :=
  ⟨rfl, by decide, init_duties_everywhere rfl (by decide) (by decide),
    duties_everywhere rfl (by decide) (by decide) (.inr (.inr (.inl (by decide)))),
    duties_everywhere rfl (by decide) (by decide) (.inr (.inr (.inl (by decide)))), by decide, by decide⟩

/-- Two machines alike in `S` and the source bytes, with another byte of memory and another layout. -/
theorem witness_SameStateSameBytes :
    readyState.engine.S = (testState (zeroKey 0 0) true .ref [(0x5000, 9)] everything).engine.S ∧
    readyState.mem.wf ∧ (testState (zeroKey 0 0) true .ref [(0x5000, 9)] everything).mem.wf ∧
    XorDuties readyState 0x3000 0x2000 2 ∧ XorDuties (testState (zeroKey 0 0) true .ref [(0x5000, 9)] everything) 0x3000 0x2000 2 ∧
    ∀ i < (2 : Word).toNat, readyState.mem.read ((0x2000 : Word).toNat + i) =
      (testState (zeroKey 0 0) true .ref [(0x5000, 9)] everything).mem.read ((0x2000 : Word).toNat + i) :=
  ⟨rfl, by decide, by decide, duties_everywhere rfl (by decide) (by decide) (.inr (.inr (.inl (by decide)))),
    duties_everywhere rfl (by decide) (by decide) (.inr (.inr (.inl (by decide)))), by decide⟩

/-- Each command ends in a next state; the addresses outside the destination are not empty at either end. -/
theorem witness_CommandFrame :
    (∃ t, exec (.init 32#32 8#32 0 0 7) readyState = .next t) ∧ (∃ t, exec (.encrypt 0x3000 0x2000 65) readyState = .next t) ∧
    (∃ t, exec (.decrypt 0x3000 0x3000 65) readyState = .next t) ∧ 0x2fff < (0x3000 : Word).toNat ∧
    (0x3000 : Word).toNat + (65 : Word).toNat ≤ 0x3041 :=
  ⟨⟨_, init_completes _⟩,
    ⟨_, (xor_completes (duties_everywhere rfl (by decide) (by decide) (.inr (.inr (.inl (by decide)))))).1⟩,
    ⟨_, (xor_completes (duties_everywhere rfl (by decide) (by decide) (.inr (.inl rfl)))).2⟩, by decide, by decide⟩

theorem witness_ReadyOnlyByInit :
    ∃ t, exec (.init 32#32 12#32 0 0 7) freshState = .next t ∧ freshState.engine.ready = false ∧ t.engine.ready = true :=
  ⟨initNext 12#32 0 0 7 freshState,
    (exec_init ..).trans (execInit_of_duties 7 (.inr rfl) (init_duties_everywhere rfl (by decide) (by decide))), rfl, by simp⟩

/-- A step of each kind of action, with an engine other than the one it names. -/
theorem witness_StepTouchesOneEngine :
    (∃ t, step (twoEngines [.issue 1 (header 4)]) = .next t) ∧ (∃ t, step (twoEngines [.reset 0]) = .next t) ∧
    (∃ t, step (twoEngines [.write 5 6]) = .next t) ∧ targetEngine (.issue 1 (header 4)) ≠ some 0 ∧
    targetEngine (.reset 0) ≠ some 1 ∧ targetEngine (.write 5 6) ≠ some 0 :=
  ⟨⟨_, rfl⟩, ⟨_, rfl⟩, ⟨_, rfl⟩, by decide, by decide, by decide⟩

/-- The duties of the 65-byte ENCRYPT that the witnesses below issue. -/
theorem encrypt_duties : XorDuties readyState 0x3000 0x2000 65 :=
  duties_everywhere rfl (by decide) (by decide) (.inr (.inr (.inl (by decide))))

def encryptWords : Words := ⟨2, 0x3000, 0x2000, 65⟩

theorem encrypt_step : step (pending (.issue 0 encryptWords)) = .next (xorNext 0x3000 0x2000 65 readyState) := by
  have hf : (pending (.issue 0 encryptWords)).pop.focus 0 = some readyState := rfl
  have hn : readyState.engine.faulted = none := rfl
  have hd : decode encryptWords = .ok (.encrypt 0x3000 0x2000 65) := by decide
  have hl : loseFaulted (xorNext 0x3000 0x2000 65 readyState) = xorNext 0x3000 0x2000 65 readyState :=
    loseFaulted_of_running (by simp [State.engines, xorNext, respond, readyState, testState])
  show settle (hostMove (.issue 0 encryptWords) (pending (.issue 0 encryptWords)).pop) = _
  simp only [hostMove, hf, runWords, hn, hd, runCommand, (xor_completes encrypt_duties).1, settle, hl]

theorem overlap_faults : exec overlap readyState = .fault (.overlapUnmodelled overlap) := by
  rw [overlap, exec_encrypt]
  simp [xorCommand, crossesTop, partialOverlap, raiseOverlapUnmodelled, readyState, testState, addrSpace]

/-- An ENCRYPT given to the engine `j` itself, and an INIT given to the other one. -/
theorem witness_OnlyAdvanceChangesInstance :
    (∃ t e e', step (pending (.issue 0 encryptWords)) = .next t ∧
      (pending (.issue 0 encryptWords)).engines[0]? = some e ∧ t.engines[0]? = some e' ∧ e'.faulted = e.faulted) ∧
    decode encryptWords = .ok (.encrypt 0x3000 0x2000 65) ∧ blocksFor 0 readyState.engine (.issue 0 encryptWords) = 2 ∧
    ((twoEngines [.issue 1 (header 1)]).inputs.head? = some (.issue 1 (header 1)) ∧
      ∃ t, step (twoEngines [.issue 1 (header 1)]) = .next t) :=
  ⟨⟨xorNext 0x3000 0x2000 65 readyState, _, _, encrypt_step, rfl, rfl, rfl⟩, by decide, by decide, rfl, ⟨_, rfl⟩⟩

/-- A command that completes, and one given to a faulted engine. -/
theorem witness_OneResultWordPerCommand :
    ((twoEngines [.issue 1 (header 1)]).inputs = [.issue 1 (header 1)] ∧ ∃ t, step (twoEngines [.issue 1 (header 1)]) = .next t) ∧
    (faultedSecond [.issue 1 (header 2)]).inputs = [.issue 1 (header 2)] ∧
      ∃ t, step (faultedSecond [.issue 1 (header 2)]) = .next t :=
  ⟨⟨rfl, ⟨_, rfl⟩⟩, rfl, ⟨_, rfl⟩⟩

/-- An overlap on the first of two engines. -/
theorem witness_ModelFaultEndsOneEngine :
    (pending (.issue 0 overlapWords)).inputs = [.issue 0 overlapWords] ∧
    (pending (.issue 0 overlapWords)).pop.focus 0 = some readyState ∧ readyState.engine.faulted = none ∧
    decode overlapWords = .ok overlap ∧ exec overlap readyState = .fault (.overlapUnmodelled overlap) :=
  ⟨rfl, rfl, rfl, by decide, overlap_faults⟩

/-- The second of two engines has faulted; a command for it, and a reset. -/
theorem witness_FaultedEngineAcceptsNothing :
    ((faultedSecond [.issue 1 (header 2)]).engines[1]? = some faultedEngine ∧
      (faultedSecond [.issue 1 (header 2)]).inputs = [.issue 1 (header 2)]) ∧
    ((faultedSecond [.reset 1]).engines[1]? = some faultedEngine ∧ (faultedSecond [.reset 1]).inputs = [.reset 1]) ∧
    faultedEngine.faulted = some (.overlapUnmodelled overlap) := by decide

theorem witness_FaultIsNeverCleared :
    (∃ t, step (faultedSecond [.reset 1]) = .next t) ∧ (∃ t, step (faultedSecond [.issue 0 (header 1)]) = .next t) ∧
    (faultedSecond [.reset 1]).inputs.head? = some (.reset 1) ∧
    (faultedSecond [.issue 0 (header 1)]).inputs.head? ≠ some (.reset 1) ∧
    (faultedSecond [.reset 1]).engines[1]? = some faultedEngine ∧
    (faultedSecond [.issue 0 (header 1)]).engines[1]? = some faultedEngine ∧
    faultedEngine.faulted = some (.overlapUnmodelled overlap) :=
  ⟨⟨_, rfl⟩, ⟨_, rfl⟩, rfl, by decide, rfl, rfl, rfl⟩

/-- A machine none of whose engines has faulted; where one has, the first byte after the range it lost. -/
theorem witness_OnlyLostBytesAreRedrawn :
    (∀ e ∈ readyState.engines, e.faulted = none) ∧ holdsValue (faultedSecond []) 0x2030 := by
  refine ⟨by decide, ?_⟩
  intro e he fault hf
  simp only [State.engines, faultedSecond, readyState, testState, List.nil_append, List.mem_cons, List.not_mem_nil, or_false] at he
  rcases he with rfl | rfl <;> cases hf
  decide

/-- The host writes into the range that `faultedSecond` lost. -/
theorem witness_LostBytesNeverRegainValue :
    (faultedSecond [.write 0x2010 7]).mem.wf ∧ (∃ t, step (faultedSecond [.write 0x2010 7]) = .next t) ∧
    ¬ holdsValue (faultedSecond [.write 0x2010 7]) 0x2010 ∧ 0x2010 < 2 ^ 32 :=
  ⟨by decide, ⟨_, rfl⟩, fun h => absurd (h faultedEngine (by decide) _ rfl) (by decide), by decide⟩

/-- An ENCRYPT that meets its duties, and an INIT that has none. -/
theorem witness_DutifulCommandIsSafe :
    ((pending (.issue 0 encryptWords)).inputs = [.issue 0 encryptWords] ∧
      (pending (.issue 0 encryptWords)).engines[0]? = some readyState.engine ∧
      decode encryptWords = .ok (.encrypt 0x3000 0x2000 65) ∧ XorDuties (pending (.issue 0 encryptWords)) 0x3000 0x2000 65) ∧
    decode (header 1) = .ok (.init 0 0 0 0 0) ∧ (0 : Word) ≠ 32#32 :=
  ⟨⟨rfl, rfl, by decide, duties_everywhere rfl (by decide) (by decide) (.inr (.inr (.inl (by decide))))⟩, by decide, by decide⟩

/-- Two constructed engines, memory with a byte listed, and a step of the second engine. -/
theorem witness_StepKeepsInvariant :
    Inv { twoEngines [.issue 1 (header 4)] with mem := [(0, 1), (0xffffffff, 2)] } ∧
    ∃ t, step { twoEngines [.issue 1 (header 4)] with mem := [(0, 1), (0xffffffff, 2)] } = .next t := by
  refine ⟨⟨by decide, ?_, ?_⟩, ⟨_, rfl⟩⟩
  · intro e he _ _
    simp only [State.engines, twoEngines, readyState, testState, List.nil_append, List.mem_cons, List.not_mem_nil, or_false] at he
    rcases he with rfl | rfl <;> exact ⟨rfl, rfl, rfl, rfl⟩
  · intro e he
    simp only [State.engines, twoEngines, readyState, testState, List.nil_append, List.mem_cons, List.not_mem_nil, or_false] at he
    rcases he with rfl | rfl <;> simp [resultsKnown, secondEngine]

/-! ## The faulted state (R111) -/

/-- A fault ends the run of its engine only: the fault is recorded, the other engine still answers. -/
theorem test_fault_ends_one_engine :
    (match step (twoEngines [.issue 0 overlapWords, .issue 1 (header 4)]) with
      | .next t =>
        match step t with
        | .next u => u.engines.map (fun e => (e.faulted, e.results))
        | _ => []
      | _ => []) = [(some (.overlapUnmodelled overlap), []), (none, [3])] := by
  decide +kernel

/-- A faulted engine accepts no command, and a reset does not clear the fault. -/
theorem test_faulted_engine :
    (match step (faultedSecond [.issue 1 (header 4), .reset 1]) with
      | .next t =>
        match step t with
        | .next u => (t.engines.map (·.results), u.engines.map (·.faulted))
        | _ => ([], [])
      | _ => ([], [])) = ([[], [0]], [none, some (.overlapUnmodelled overlap)]) := by
  decide +kernel

end Sys2Proof.Tests
end

section
/-! PROOF. Words and bytes (R7, R8). `le32` is read as a number once, in `le32_toNat`; that `bytesLe32` and `le32` undo
each other is then division with remainder by powers of `2 ^ 8`. `rotl32` is read bit by bit. -/

namespace Sys2Proof.Machine

/-! ### Little-endian packing (R8) -/

/-- A byte put above the bits in use occupies bits of its own, so `|||` adds it. -/
theorem or_shifted_byte_toNat {x : Word} {k : Nat} (b : Byte) (hk : k ≤ 24) (hx : x.toNat < 2 ^ k) :
    (x ||| b.setWidth 32 <<< k).toNat = x.toNat + 2 ^ k * b.toNat := by
  have fits : b.toNat * 2 ^ k < 2 ^ 32 :=
    calc b.toNat * 2 ^ k < 2 ^ 8 * 2 ^ k := Nat.mul_lt_mul_of_pos_right b.isLt (Nat.two_pow_pos k)
      _ ≤ 2 ^ 8 * 2 ^ 24 := Nat.mul_le_mul_left _ (Nat.pow_le_pow_right (by decide) hk)
  rw [BitVec.toNat_or, BitVec.toNat_shiftLeft, BitVec.toNat_setWidth_of_le (by decide), Nat.shiftLeft_eq,
    Nat.mod_eq_of_lt fits, Nat.mul_comm, Nat.or_comm, ← Nat.two_pow_add_eq_or_of_lt hx, Nat.add_comm]

theorem le32_toNat (b0 b1 b2 b3 : Byte) :
    (le32 b0 b1 b2 b3).toNat = b0.toNat + 2 ^ 8 * b1.toNat + 2 ^ 16 * b2.toNat + 2 ^ 24 * b3.toNat := by
  have h0 : (b0.setWidth 32).toNat = b0.toNat := BitVec.toNat_setWidth_of_le (by decide)
  have h1 := or_shifted_byte_toNat (x := b0.setWidth 32) b1 (k := 8) (by decide) (by omega)
  have h2 := or_shifted_byte_toNat (x := b0.setWidth 32 ||| b1.setWidth 32 <<< 8) b2 (k := 16) (by decide) (by omega)
  rw [le32, or_shifted_byte_toNat b3 (by decide) (by omega), h2, h1, h0]

/-- At `k = 8 * j` this is digit `j` of the word's number in base `2 ^ 8`. -/
theorem byte_toNat (w : Word) (k : Nat) : (w.extractLsb' k 8).toNat = w.toNat / 2 ^ k % 2 ^ 8 := by
  rw [BitVec.extractLsb'_toNat, Nat.shiftRight_eq_div_pow]

theorem bytesLe32_le32 (b0 b1 b2 b3 : Byte) : bytesLe32 (le32 b0 b1 b2 b3) = [b0, b1, b2, b3] := by
  have h0 := b0.isLt
  have h1 := b1.isLt
  have h2 := b2.isLt
  have h3 := b3.isLt
  simp only [bytesLe32, List.cons.injEq, and_true]
  refine ⟨?_, ?_, ?_, ?_⟩ <;>
    · apply BitVec.eq_of_toNat_eq
      rw [byte_toNat, le32_toNat]
      omega

theorem le32_bytes (w : Word) :
    le32 (w.extractLsb' 0 8) (w.extractLsb' 8 8) (w.extractLsb' 16 8) (w.extractLsb' 24 8) = w := by
  have hw := w.isLt
  apply BitVec.eq_of_toNat_eq
  rw [le32_toNat, byte_toNat, byte_toNat, byte_toNat, byte_toNat]
  omega

theorem wordAt_of_getElem? {bytes : List Byte} {i : Nat} {b0 b1 b2 b3 : Byte} (h0 : bytes[4 * i]? = some b0)
    (h1 : bytes[4 * i + 1]? = some b1) (h2 : bytes[4 * i + 2]? = some b2) (h3 : bytes[4 * i + 3]? = some b3) :
    wordAt bytes i = le32 b0 b1 b2 b3 := by
  simp only [wordAt, List.getD_eq_getElem?_getD, h0, h1, h2, h3, Option.getD_some]

/-- Settles O1: `le32` as a number, from which both inverses follow digit by digit in base `2 ^ 8`. -/
theorem packingIsLittleEndian : Obligations.PackingIsLittleEndian := by
  refine ⟨fun b0 b1 b2 b3 => ⟨le32_toNat b0 b1 b2 b3, bytesLe32_le32 b0 b1 b2 b3⟩, le32_bytes, ?_⟩
  intro bytes i b0 b1 b2 b3 h0 h1 h2 h3
  rw [wordAt_of_getElem? h0 h1 h2 h3, le32_toNat]

/-! ### Rotation (R7) -/

theorem rotl32_getLsbD {v : Word} {n i : Nat} (hi : i < 32) :
    (rotl32 v n).getLsbD i = (!decide (i < n) && v.getLsbD (i - n) || v.getLsbD (32 - n + i)) := by
  rw [rotl32, BitVec.getLsbD_or, BitVec.getLsbD_shiftLeft, BitVec.getLsbD_ushiftRight, decide_eq_true hi, Bool.true_and]

/-- The low `n` bits come from the top of the word: the left shift has cleared them. -/
theorem rotl32_getLsbD_of_lt {v : Word} {n i : Nat} (hi : i < 32) (hin : i < n) :
    (rotl32 v n).getLsbD i = v.getLsbD (32 - n + i) := by
  simp [rotl32_getLsbD hi, hin]

/-- The other bits come from `n` places below: the right shift has no bit so high. -/
theorem rotl32_getLsbD_of_le {v : Word} {n i : Nat} (hi : i < 32) (hni : n ≤ i) :
    (rotl32 v n).getLsbD i = v.getLsbD (i - n) := by
  have high : v.getLsbD (32 - n + i) = false := BitVec.getLsbD_of_ge v _ (by omega)
  simp [rotl32_getLsbD hi, high, Nat.not_lt.mpr hni]

/-- Settles O2: a bit below `n` comes from the top of the word, every other one from `n` places below. -/
theorem rotateMovesEveryBit : Obligations.RotateMovesEveryBit := by
  intro v n i _ hn hi
  rcases Nat.lt_or_ge i n with hin | hni
  · have index : (i + 32 - n) % 32 = 32 - n + i := by omega
    rw [rotl32_getLsbD_of_lt hi hin, index]
  · have index : (i + 32 - n) % 32 = i - n := by omega
    rw [rotl32_getLsbD_of_le hi hni, index]

end Sys2Proof.Machine
end

section
/-! PROOF. The machine's state (10_state.md). `exec_next` says once how a command can complete; what a command leaves
alone, what it keeps of the invariant and how often it advances `S` are short case splits on it. A step is then read as
a turn to the engine named (`focus_eq_some`), what happens there, and `loseFaulted`, which touches no engine. -/

namespace Sys2Proof.Machine

/-! ### How a command completes -/

/-- The four ways in which a command reaches a next state. -/
inductive CompletesAs (i : Instr) (s t : State) : Prop where
  | refusesInit (c : ResultCode) (klen nlen kaddr naddr ctr : Word) (hi : i = .init klen nlen kaddr naddr ctr)
      (ht : t = respond c (failConstruction s))
  | constructs (nlen kaddr naddr ctr : Word) (hi : i = .init 32#32 nlen kaddr naddr ctr)
      (hn : nlen = 8#32 ∨ nlen = 12#32) (ht : t = initNext nlen kaddr naddr ctr s)
  | notConstructed (daddr saddr len : Word) (hi : i = .encrypt daddr saddr len ∨ i = .decrypt daddr saddr len)
      (hr : s.engine.ready = false) (ht : t = respond .notConstructed s)
  | streams (daddr saddr len : Word) (hi : i = .encrypt daddr saddr len ∨ i = .decrypt daddr saddr len)
      (hr : s.engine.ready = true) (hd : XorDuties s daddr saddr len) (ht : t = xorNext daddr saddr len s)

theorem exec_next {i : Instr} {s t : State} (h : exec i s = .next t) : CompletesAs i s t := by
  have xor : ∀ {daddr saddr len}, xorCommand i daddr saddr len s = .next t →
      i = .encrypt daddr saddr len ∨ i = .decrypt daddr saddr len → CompletesAs i s t := by
    intro daddr saddr len hx hi
    rcases xorCommand_next hx with ⟨hr, ht⟩ | ⟨hr, hd, ht⟩
    · exact .notConstructed daddr saddr len hi hr ht
    · exact .streams daddr saddr len hi hr hd ht
  cases i with
  | init klen nlen kaddr naddr ctr =>
    rcases execInit_next h with ⟨-, ht⟩ | ⟨-, -, -, ht⟩ | ⟨rfl, hn, -, ht⟩
    · exact .refusesInit .wrongKeySize klen nlen kaddr naddr ctr rfl ht
    · exact .refusesInit .wrongNonceSize klen nlen kaddr naddr ctr rfl ht
    · exact .constructs nlen kaddr naddr ctr rfl hn ht
  | encrypt daddr saddr len => exact xor h (.inl rfl)
  | decrypt daddr saddr len => exact xor h (.inr rfl)

/-- Settles O48: where `READY` was 0, only `constructs` leaves it 1. -/
theorem readyOnlyByInit : Obligations.ReadyOnlyByInit := by
  intro i s t h hs ht
  cases exec_next h with
  | refusesInit c klen nlen kaddr naddr ctr hi hte => simp [hte] at ht
  | constructs nlen kaddr naddr ctr hi hn hte =>
    exact ⟨nlen, kaddr, naddr, ctr, hi, hn, by rw [hte, initNext_results]; rfl⟩
  | notConstructed daddr saddr len hi hr hte => simp [hte, hr] at ht
  | streams daddr saddr len hi hr hd hte => simp [hs] at hr

/-! ### ADVANCE as the only change to `S` outside INIT and reset (R22) -/

/-- `e'` is `e` with `S` advanced `q` times and the flags kept. -/
structure AdvancedBy (q : Nat) (e e' : Engine) : Prop where
  ready : e'.ready = e.ready
  layout : e'.layout = e.layout
  words : e'.S = advances q e.S

theorem AdvancedBy.refl (e : Engine) : AdvancedBy 0 e e := ⟨rfl, rfl, rfl⟩

theorem AdvancedBy.word_eq {q : Nat} {e e' : Engine} (h : AdvancedBy q e e') (m : Fin 16) (h12 : m ≠ 12) (h13 : m ≠ 13) :
    e'.S[m] = e.S[m] := by
  simp only [Fin.getElem_fin, h.words]
  exact advances_getElem_of_ne q e.S m.isLt (fun hm => h12 (Fin.ext hm)) fun hm => h13 (Fin.ext hm)

theorem respond_advancedBy (c : ResultCode) (s : State) : AdvancedBy 0 s.engine (respond c s).engine := ⟨rfl, rfl, rfl⟩

theorem xorNext_advancedBy (daddr saddr len : Word) (s : State) :
    AdvancedBy (blockCount len.toNat) s.engine (xorNext daddr saddr len s).engine := ⟨rfl, rfl, rfl⟩

theorem xorNext_read_outside {daddr saddr len : Word} {s : State} {a : Nat}
    (h : a < daddr.toNat ∨ daddr.toNat + len.toNat ≤ a) : (xorNext daddr saddr len s).mem.read a = s.mem.read a :=
  streamMem_read_outside rfl h

/-- Settles O46: `exec_keeps` gives what every command leaves alone, `exec_next` the frame of each kind of command. -/
theorem commandFrame : Obligations.CommandFrame := by
  intro i s t h
  obtain ⟨⟨hb, ha, hadm, hin⟩, hf, hres⟩ := exec_keeps h
  refine ⟨hb, ha, hadm, hin, hf, hres, ?_⟩
  cases exec_next h with
  | refusesInit c klen nlen kaddr naddr ctr hi ht => subst hi ht; rfl
  | constructs nlen kaddr naddr ctr hi hn ht => subst hi ht; exact initNext_mem nlen kaddr naddr ctr s
  | notConstructed daddr saddr len hi hr ht =>
    subst ht
    rcases hi with rfl | rfl <;> exact ⟨fun _ _ => rfl, fun _ _ _ => rfl, rfl, rfl, rfl⟩
  | streams daddr saddr len hi hr hd ht =>
    subst ht
    have hadv := xorNext_advancedBy daddr saddr len s
    rcases hi with rfl | rfl <;>
      exact ⟨fun _ => xorNext_read_outside, hadv.word_eq, hadv.ready, hadv.layout, rfl⟩

/-! ### One engine per step (R27, R116) -/

theorem resetEngine_keeps (s : State) : CommandKeeps s (resetEngine s) := ⟨rfl, rfl, rfl, rfl⟩

/-- The frame of what is done to engine `k` after the host's next action was taken. -/
theorem focus_keeps_others {k : Nat} {s u t : State} (hf : s.pop.focus k = some u) (hk : CommandKeeps u t) :
    t.engines.length = s.engines.length ∧ t.admitted = s.admitted ∧ t.inputs = s.inputs.tail ∧
      ∀ j, j ≠ k → t.engines[j]? = s.engines[j]? := by
  obtain ⟨-, hengines, hindex, -, hadm, hin, -⟩ := focus_eq_some hf
  obtain ⟨hlen, hothers⟩ := engines_of_around hk.before hk.after
  rw [hengines, engines_pop] at hlen hothers
  exact ⟨hlen, hk.admitted.trans hadm, hk.inputs.trans hin, fun j hj => hothers j (hindex ▸ hj)⟩

/-- What is done to engine `k` is found at its number. -/
theorem focus_engine_after {k : Nat} {s u t : State} (hf : s.pop.focus k = some u) (hk : CommandKeeps u t) :
    t.engines[k]? = some t.engine := by
  obtain ⟨-, -, hindex, -⟩ := focus_eq_some hf
  have ht : t.index = k := by rw [← hindex, State.index, State.index, hk.before]
  rw [← ht]
  exact engines_index t

/-- Settles O49: the step turns to the engine named, if any, and `focus_keeps_others` says what stays. -/
theorem stepTouchesOneEngine : Obligations.StepTouchesOneEngine := by
  intro s t a rest hin h
  obtain ⟨u, hu, rfl⟩ := step_next h
  simp only [loseFaulted_engines, loseFaulted_admitted, loseFaulted_inputs]
  have named : ∀ {k v}, targetEngine a = some k → s.pop.focus k = some v → CommandKeeps v u →
      u.engines.length = s.engines.length ∧ u.admitted = s.admitted ∧ u.inputs = rest ∧
        ∀ j, targetEngine a ≠ some j → u.engines[j]? = s.engines[j]? := by
    intro k v ha hf hk
    obtain ⟨hlen, hadm, hinputs, hothers⟩ := focus_keeps_others hf hk
    exact ⟨hlen, hadm, by rw [hinputs, hin]; rfl, fun j hj => hothers j fun hjk => hj (hjk ▸ ha)⟩
  cases hu with
  | idle hi _ => simp [hin] at hi
  | issue k w rest' v hi hf ht =>
    cases hin.symm.trans hi
    exact named rfl hf (runWords_keeps ht)
  | write addr v rest' hi ht =>
    subst ht
    exact ⟨rfl, rfl, by simp [hin], fun _ _ => rfl⟩
  | reset k rest' v hi hf ht =>
    cases hin.symm.trans hi
    exact named rfl hf (ht ▸ resetEngine_keeps v)

/-! ### ADVANCE over a step -/

theorem blocksFor_of_ne_target {j : Nat} {a : HostAction} (h : targetEngine a ≠ some j) (e : Engine) :
    blocksFor j e a = 0 := by
  cases a with
  | issue k w =>
    have hk : k ≠ j := fun hkj => h (hkj ▸ rfl)
    simp only [blocksFor, if_neg hk]
    split <;> rfl
  | write addr v => rfl
  | reset k => rfl

/-- R90, R95: a command other than INIT that completes advances `S` once per block. -/
theorem exec_advancedBy {i : Instr} {s t : State} (h : exec i s = .next t) (hf : s.engine.faulted = none)
    (hi : ∀ klen nlen kaddr naddr ctr, i ≠ .init klen nlen kaddr naddr ctr) :
    AdvancedBy (blocksOf s.engine i) s.engine t.engine := by
  cases exec_next h with
  | refusesInit c klen nlen kaddr naddr ctr hinit ht => exact absurd hinit (hi klen nlen kaddr naddr ctr)
  | constructs nlen kaddr naddr ctr hinit hn ht => exact absurd hinit (hi 32#32 nlen kaddr naddr ctr)
  | notConstructed daddr saddr len hx hr ht =>
    have hq : blocksOf s.engine i = 0 := by rcases hx with rfl | rfl <;> simp [blocksOf, hr]
    rw [hq, ht]
    exact respond_advancedBy .notConstructed s
  | streams daddr saddr len hx hr hd ht =>
    have hq : blocksOf s.engine i = blockCount len.toNat := by rcases hx with rfl | rfl <;> simp [blocksOf, hr, hf]
    rw [hq, ht]
    exact xorNext_advancedBy daddr saddr len s

/-- A faulted engine generates no block. -/
theorem blocksFor_of_faulted {e : Engine} {fault : Fault} (h : e.faulted = some fault) (j : Nat) (a : HostAction) :
    blocksFor j e a = 0 := by
  have hq : ∀ i, blocksOf e i = 0 := fun i => by cases i <;> simp [blocksOf, h]
  cases a with
  | issue k w =>
    simp only [blocksFor, hq, ite_self]
    split <;> rfl
  | write addr v => rfl
  | reset k => rfl

/-- Four words that are no INIT, on an engine that does not fault by them. -/
theorem commandRuns_advancedBy {k : Nat} {w : Words} {s t : State} (h : CommandRuns w s t)
    (hfault : t.engine.faulted = s.engine.faulted)
    (hinit : ∀ klen nlen kaddr naddr ctr, decode w ≠ .ok (.init klen nlen kaddr naddr ctr)) :
    AdvancedBy (blocksFor k s.engine (.issue k w)) s.engine t.engine := by
  cases h with
  | stopped fault hf ht =>
    rw [blocksFor_of_faulted hf, ht]
    exact .refl s.engine
  | illegal reason hf hw ht =>
    simp only [blocksFor, hw, ht]
    exact respond_advancedBy .illegalCommand s
  | completes i hf hw ht =>
    simp only [blocksFor, hw, if_true]
    exact exec_advancedBy ht hf fun klen nlen kaddr naddr ctr hi => hinit klen nlen kaddr naddr ctr (hi ▸ hw)
  | faults i fault hf hw he hi ht =>
    rw [ht, enterFaulted_engine_faulted, hf] at hfault
    cases hfault

/-- A step that gives words to engine `k` runs them on that engine and leaves it at its number. -/
theorem step_issue_next {s t : State} {k : Nat} {w : Words} {rest : List HostAction} (hin : s.inputs = .issue k w :: rest)
    (h : step s = .next t) :
    ∃ u v, s.engines[k]? = some u.engine ∧ t.engines[k]? = some v.engine ∧ CommandRuns w u v := by
  obtain ⟨v, hv, rfl⟩ := step_next h
  cases hv with
  | issue k' w' rest' u hi hf ht =>
    cases hin.symm.trans hi
    obtain ⟨hengine, -⟩ := focus_eq_some hf
    exact ⟨u, v, hengine, by rw [loseFaulted_engines]; exact focus_engine_after hf (runWords_keeps ht), runWords_next ht⟩
  | idle hi _ => simp [hin] at hi
  | write _ _ _ hi _ => simp [hin] at hi
  | reset _ _ _ hi _ _ => simp [hin] at hi

/-- A step with nothing to do keeps every engine. -/
theorem step_idle_engines {s t : State} (hin : s.inputs = []) (h : step s = .next t) : t.engines = s.engines := by
  obtain ⟨u, hu, rfl⟩ := step_next h
  rw [loseFaulted_engines]
  cases hu with
  | idle _ ht => rw [ht]
  | issue _ _ _ _ hi _ _ => simp [hin] at hi
  | write _ _ _ hi _ => simp [hin] at hi
  | reset _ _ _ hi _ _ => simp [hin] at hi

/-- Settles O50: an engine that the action does not name is kept (`stepTouchesOneEngine`), and on the named one
`commandRuns_advancedBy` counts the ADVANCEs. -/
theorem onlyAdvanceChangesInstance : Obligations.OnlyAdvanceChangesInstance := by
  intro s t j e e' h he he' hfault hinit hreset
  suffices hadv : AdvancedBy ((s.inputs.head?.map (blocksFor j e)).getD 0) e e' from
    ⟨hadv.ready, hadv.layout, hadv.word_eq, hadv.words⟩
  have kept : t.engines[j]? = s.engines[j]? → AdvancedBy 0 e e' := by
    intro hj
    rw [he, he'] at hj
    cases hj
    exact .refl e
  cases hin : s.inputs with
  | nil => exact kept (by rw [step_idle_engines hin h])
  | cons a rest =>
    simp only [List.head?_cons, Option.map_some, Option.getD_some]
    by_cases hj : targetEngine a = some j
    · cases a with
      | issue k w =>
        cases hj
        obtain ⟨u, v, hu, hv, hruns⟩ := step_issue_next hin h
        cases he.symm.trans hu
        cases he'.symm.trans hv
        exact commandRuns_advancedBy hruns hfault fun klen nlen kaddr naddr ctr =>
          hinit w klen nlen kaddr naddr ctr (by rw [hin]; rfl)
      | write addr v => cases hj
      | reset k =>
        cases hj
        exact absurd (by rw [hin]; rfl) hreset
    · rw [blocksFor_of_ne_target hj]
      obtain ⟨-, -, -, hothers⟩ := stepTouchesOneEngine s t a rest hin h
      exact kept (hothers j hj)

/-! ### The invariant -/

theorem engine_mem_engines (s : State) : s.engine ∈ s.engines := List.mem_of_getElem? (engines_index s)

theorem resultsKnown_append {e e' : Engine} {c : ResultCode} (h : resultsKnown e)
    (he' : e'.results = e.results ++ [resultWord c]) : resultsKnown e' := by
  intro w hw
  rw [he', List.mem_append, List.mem_singleton] at hw
  rcases hw with hw | hw
  · exact h w hw
  · exact ⟨c, hw⟩

/-- Where only memory and the driven engine may have changed, the invariant asks for those two. -/
theorem inv_of_driven {s t : State} (h : Inv s) (hb : t.before = s.before) (ha : t.after = s.after) (hm : t.mem.wf)
    (hc : engineConstants t.engine) (hr : resultsKnown t.engine) : Inv t :=
  ⟨hm, forall_engines_of_around hb ha h.constants hc, forall_engines_of_around hb ha h.results hr⟩

/-- Where only memory may have changed, the invariant asks for memory. -/
theorem inv_of_engines {s t : State} (h : Inv s) (he : t.engines = s.engines) (hm : t.mem.wf) : Inv t :=
  ⟨hm, he ▸ h.constants, he ▸ h.results⟩

theorem inv_pop {s : State} (h : Inv s) : Inv s.pop := inv_of_engines h (engines_pop s) h.memory

theorem inv_focus {k : Nat} {s t : State} (h : Inv s) (hf : s.focus k = some t) : Inv t := by
  obtain ⟨-, hengines, -, hmem, -⟩ := focus_eq_some hf
  exact inv_of_engines h hengines (hmem ▸ h.memory)

theorem inv_loseFaulted {s : State} (h : Inv s) : Inv (loseFaulted s) :=
  inv_of_engines h (loseFaulted_engines s) (loseFaulted_wf h.memory)

theorem inv_hostWrite {s : State} (h : Inv s) (addr : Word) (v : Byte) : Inv (hostWrite addr v s) :=
  inv_of_engines h rfl (Memory.write_wf h.memory addr.isLt v)

theorem inv_respond {s : State} (h : Inv s) (c : ResultCode) : Inv (respond c s) := by
  have hc : engineConstants s.engine := h.constants s.engine (engine_mem_engines s)
  have hr : resultsKnown s.engine := h.results s.engine (engine_mem_engines s)
  exact inv_of_driven h rfl rfl h.memory hc (resultsKnown_append hr (respond_engine_results c s))

/-- The constants are asked of running engines only. -/
theorem inv_enterFaulted {s : State} (h : Inv s) (fault : Fault) : Inv (enterFaulted fault s) := by
  have hr : resultsKnown s.engine := h.results s.engine (engine_mem_engines s)
  exact inv_of_driven h rfl rfl h.memory (fun hf => nomatch hf) hr

/-- A running engine has `READY` = 0 after its reset, and no engine has a result word after it. -/
theorem inv_resetEngine {s : State} (h : Inv s) : Inv (resetEngine s) := by
  refine inv_of_driven h rfl rfl h.memory ?_ ?_
  · intro hf hr
    rw [resetEngine_engine_ready (by rwa [resetEngine_engine_faulted] at hf)] at hr
    cases hr
  · intro w hw
    rw [resetEngine_engine_results] at hw
    cases hw

theorem exec_keeps_wf {i : Instr} {s t : State} (h : exec i s = .next t) (hm : s.mem.wf) : t.mem.wf := by
  cases exec_next h with
  | refusesInit c klen nlen kaddr naddr ctr hi ht => rw [ht]; exact hm
  | constructs nlen kaddr naddr ctr hi hn ht => rw [ht, initNext_mem]; exact hm
  | notConstructed daddr saddr len hi hr ht => rw [ht]; exact hm
  | streams daddr saddr len hi hr hd ht => rw [ht]; exact xorNext_wf hm hd.destination

/-- R15, R22: INIT writes the constants or clears `READY`, and ADVANCE keeps them. -/
theorem exec_keeps_constants {i : Instr} {s t : State} (h : exec i s = .next t) (hc : engineConstants s.engine) :
    engineConstants t.engine := by
  cases exec_next h with
  | refusesInit c klen nlen kaddr naddr ctr hi ht =>
    intro _ hready
    simp [ht] at hready
  | constructs nlen kaddr naddr ctr hi hn ht =>
    rw [ht]
    exact fun _ _ => constantsHold_initNext nlen kaddr naddr ctr s
  | notConstructed daddr saddr len hi hr ht => rw [ht]; exact hc
  | streams daddr saddr len hi hr hd ht =>
    rw [ht]
    exact fun hf hready => constantsHold_advances _ (hc hf hready)

theorem inv_exec {i : Instr} {s t : State} (hs : Inv s) (h : exec i s = .next t) : Inv t := by
  obtain ⟨hkeeps, -, c, hres⟩ := exec_keeps h
  have hdriven := engine_mem_engines s
  exact inv_of_driven hs hkeeps.before hkeeps.after (exec_keeps_wf h hs.memory)
    (exec_keeps_constants h (hs.constants _ hdriven)) (resultsKnown_append (hs.results _ hdriven) hres)

theorem inv_runWords {w : Words} {s t : State} (hs : Inv s) (h : runWords w s = .next t) : Inv t := by
  cases runWords_next h with
  | stopped fault hf ht => rw [ht]; exact hs
  | illegal reason hf hw ht => rw [ht]; exact inv_respond hs .illegalCommand
  | completes i hf hw ht => exact inv_exec hs ht
  | faults i fault hf hw he hi ht => rw [ht]; exact inv_enterFaulted hs fault

/-- Settles O52: each kind of host action keeps the invariant, and so does the drawing of lost bytes after it. -/
theorem stepKeepsInvariant : Obligations.StepKeepsInvariant := by
  intro s t hs h
  obtain ⟨u, hu, rfl⟩ := step_next h
  refine inv_loseFaulted ?_
  cases hu with
  | idle hi ht => rw [ht]; exact hs
  | issue k w rest v hi hf ht => exact inv_runWords (inv_focus (inv_pop hs) hf) ht
  | write addr v rest hi ht => rw [ht]; exact inv_hostWrite (inv_pop hs) addr v
  | reset k rest v hi hf ht => rw [ht]; exact inv_resetEngine (inv_focus (inv_pop hs) hf)

/-! ### The machine right after reset (R28) -/

theorem mem_engines_boot {p : Platform} {e : Engine} (h : e ∈ (State.boot p).engines) : ∃ draw, e = Engine.reset draw := by
  simp only [State.boot, State.engines, List.nil_append, List.mem_cons, List.mem_map] at h
  rcases h with rfl | ⟨k, -, rfl⟩
  · exact ⟨0, rfl⟩
  · exact ⟨k + 1, rfl⟩

/-- Settles O15: every engine is an `Engine.reset`, and there is one per number below `N_ENGINES`. -/
theorem resetLeavesEnginesIdle : Obligations.ResetLeavesEnginesIdle := by
  intro p
  refine ⟨fun e he => ?_, by simp [State.boot, State.engines], rfl, rfl⟩
  obtain ⟨draw, rfl⟩ := mem_engines_boot he
  exact ⟨rfl, rfl, rfl⟩

theorem inv_boot (p : Platform) : Inv (State.boot p) := by
  obtain ⟨hidle, -⟩ := resetLeavesEnginesIdle p
  refine ⟨Memory.wf_nil, fun e he _ hready => ?_, fun e he w hw => ?_⟩
  · obtain ⟨hnot, -, -⟩ := hidle e he
    rw [hnot] at hready
    cases hready
  · obtain ⟨-, hnone, -⟩ := hidle e he
    rw [hnone] at hw
    cases hw

/-- Settles O53: right after reset nothing is listed, constructed or delivered. -/
theorem resetMeetsInvariant : Obligations.ResetMeetsInvariant := ⟨inv_boot, inv_boot Platform.allAdmitted⟩

/-! ### A command given by the host (R24, R48) -/

theorem step_issue {s t : State} {k : Nat} {w : Words} {rest : List HostAction} (hin : s.inputs = .issue k w :: rest)
    (hf : s.pop.focus k = some t) : step s = settle (runWords w t) := by
  simp only [step, hin, hostMove, hf]

theorem runWords_of_decode {w : Words} {i : Instr} {s : State} (hf : s.engine.faulted = none) (hw : decode w = .ok i) :
    runWords w s = runCommand i s := by
  simp only [runWords, hf, hw]

/-- Settles O9: the state meant is the one `focus` turns to. -/
theorem stepRunsDecodedCommand : Obligations.StepRunsDecodedCommand := by
  intro s k w rest i e hin he hrun hw
  obtain ⟨hk, -⟩ := List.getElem?_eq_some_iff.1 he
  obtain ⟨t, hf⟩ := focus_of_lt (s := s.pop) hk
  obtain ⟨hengine, hengines, hindex, hmem, hadm, hinputs, hdraws⟩ := focus_eq_some hf
  have hte : t.engine = e := Option.some.inj (hengine.symm.trans he)
  refine ⟨t, hte, hengines, hindex, hmem, hadm, by rw [hinputs, State.pop_inputs, hin]; rfl, hdraws, ?_⟩
  rw [step_issue hin hf, runWords_of_decode (hte ▸ hrun) hw, runCommand]
  cases exec i t <;> rfl

end Sys2Proof.Machine
end

section
/-! PROOF. Host memory and its checks (20_memory.md). From the case lemmas `execInit_cases` and `xorCommand_cases`
follows that a command with a duty of R123 not met is BufferFault; each fault statement then names the duty its premise
breaks. The in-place XOR is the closed form `streamMem_read` with source and destination equal. -/

namespace Sys2Proof.Machine

/-! ### Ranges that fail a check (R32, R33) -/

/-- One byte that is not admitted spoils its range. -/
theorem not_rangeAdmitted_of_byte {s : State} {a n i : Nat} {kind : Access} (hi : i < n)
    (h : s.admits (a + i) kind = false) : ¬ rangeAdmitted s a n kind := by
  intro hr
  simp [hr i hi] at h

theorem insideSpace_iff_of_pos {a n : Word} (hn : 0 < n.toNat) : insideSpace a n ↔ a.toNat + n.toNat ≤ 2 ^ 32 := by
  rw [← crossesTop_eq_false, crossesTop_of_pos hn]

/-! ### When a command is BufferFault (R109, R112) -/

theorem execInit_of_not_duties {nlen kaddr naddr : Word} (ctr : Word) {s : State} (hn : nlen = 8#32 ∨ nlen = 12#32)
    (h : ¬ InitDuties s kaddr naddr nlen) :
    execInit 32#32 nlen kaddr naddr ctr s = .fault (.bufferFault (.init 32#32 nlen kaddr naddr ctr)) := by
  rcases execInit_cases 32#32 nlen kaddr naddr ctr s with ⟨hk, -⟩ | ⟨-, h8, h12, -⟩ | ⟨-, -, hd, -⟩ | ⟨-, -, -, he⟩
  · exact absurd rfl hk
  · exact (hn.elim h8 h12).elim
  · exact absurd hd h
  · exact he

/-- A constructed engine faults when a duty of R123 is not met; `hover` rules out OverlapUnmodelled, which comes only
after the range checks. -/
theorem xorCommand_of_not_duties {command : Instr} {daddr saddr len : Word} {s : State} (hready : s.engine.ready = true)
    (hover : insideSpace saddr len → insideSpace daddr len → equalOrDisjoint daddr saddr len)
    (h : ¬ XorDuties s daddr saddr len) : xorCommand command daddr saddr len s = .fault (.bufferFault command) := by
  rcases xorCommand_cases command daddr saddr len s with
    ⟨hr, -⟩ | ⟨-, hd, -⟩ | ⟨-, -, he⟩ | ⟨-, hs, hd, ho, -⟩ | ⟨-, -, -, -, -, he⟩
  · simp [hready] at hr
  · exact absurd hd h
  · exact he
  · exact absurd (hover hs hd) ho
  · exact he

/-- Settles O22: each of the four premises breaks one duty of an INIT. -/
theorem initBadRangeFaults : Obligations.InitBadRangeFaults := by
  intro nlen kaddr naddr ctr s hn hbad
  rw [exec_init]
  refine execInit_of_not_duties ctr hn fun hd => ?_
  rcases hbad with hkey | hnonce | ⟨i, hi, hkey⟩ | ⟨i, hi, hnonce⟩
  · exact absurd hd.key (Nat.not_le.2 hkey)
  · exact absurd hd.nonce (Nat.not_le.2 hnonce)
  · exact not_rangeAdmitted_of_byte hi hkey hd.keyReadable
  · exact not_rangeAdmitted_of_byte hi hnonce hd.nonceReadable

/-- Settles O38: one of the two ranges is not inside the address space, so the overlap check is not reached. -/
theorem rangePastTopFaults : Obligations.RangePastTopFaults := by
  intro daddr saddr len s hready hlen htop
  have hout : ¬ (insideSpace saddr len ∧ insideSpace daddr len) := by
    rw [insideSpace_iff_of_pos hlen, insideSpace_iff_of_pos hlen]
    omega
  have hfault : ∀ command, xorCommand command daddr saddr len s = .fault (.bufferFault command) := fun _ =>
    xorCommand_of_not_duties hready (fun hs hd => absurd ⟨hs, hd⟩ hout) fun h => hout ⟨h.source, h.destination⟩
  exact ⟨(exec_encrypt ..).trans (hfault _), (exec_decrypt ..).trans (hfault _)⟩

/-- Settles O40: the overlap check passes, and one of the two ranges is not admitted. -/
theorem unadmittedByteFaults : Obligations.UnadmittedByteFaults := by
  intro daddr saddr len s i hready hi _ _ hover hbyte
  have hduties : ¬ XorDuties s daddr saddr len := fun h => by
    rcases hbyte with hread | hwrite
    · exact not_rangeAdmitted_of_byte hi hread h.readable
    · exact not_rangeAdmitted_of_byte hi hwrite h.writable
  have hfault : ∀ command, xorCommand command daddr saddr len s = .fault (.bufferFault command) := fun _ =>
    xorCommand_of_not_duties hready (fun _ _ => .inr hover) hduties
  exact ⟨(exec_encrypt ..).trans (hfault _), (exec_decrypt ..).trans (hfault _)⟩

/-! ### What a completed command writes (R42, R93) -/

theorem xorNext_read_inside {daddr saddr len : Word} {s : State} {i : Nat} (hm : s.mem.wf)
    (hd : XorDuties s daddr saddr len) (hi : i < len.toNat) :
    (xorNext daddr saddr len s).mem.read (daddr.toNat + i) =
      s.mem.read (saddr.toNat + i) ^^^ keystreamByte s.engine.S i := by
  have hpos : 0 < len.toNat := Nat.zero_lt_of_lt hi
  exact streamMem_read rfl hm ((insideSpace_iff_of_pos hpos).1 hd.destination)
    (separate_of_equalOrDisjoint hd.overlap hpos) hi

/-- In place the duties of R123 are those on one range. -/
theorem xorDuties_inPlace {addr len : Word} {s : State} (hspace : addr.toNat + len.toNat ≤ 2 ^ 32)
    (hread : rangeAdmitted s addr.toNat len.toNat .read) (hwrite : rangeAdmitted s addr.toNat len.toNat .write) :
    XorDuties s addr addr len := ⟨.inr hspace, .inr hspace, .inr (.inl rfl), hread, hwrite⟩

/-- Settles O36: both commands end in `xorNext`, read at an offset of the range or outside it. -/
theorem inPlaceXor : Obligations.InPlaceXor := by
  intro addr len s hready hm hspace hread hwrite
  have hd := xorDuties_inPlace hspace hread hwrite
  refine ⟨xorNext addr addr len s, xorNext addr addr len s, (exec_encrypt ..).trans (xorCommand_of_duties hready hd),
    (exec_decrypt ..).trans (xorCommand_of_duties hready hd), rfl, fun a => ?_⟩
  split
  · next hin =>
    have h := xorNext_read_inside hm hd (i := a - addr.toNat) (by omega)
    rwa [Nat.add_sub_cancel' hin.1] at h
  · next hout => exact xorNext_read_outside (by omega)

end Sys2Proof.Machine
end

section
/-! PROOF. The encoding (30_encoding.md). The fields of a header are read as digits of its number, so that the decoder's
four answers become lemmas about `W0` as a number; the header INIT encodes to is a number too, and decoding, encoding and
the assembler's words are arithmetic on it. An illegal or placed command is then one case of `runWords`. -/

namespace Sys2Proof.Machine

/-! ### The header's fields as numbers (R49 to R52) -/

theorem opField_eq_iff {w0 : Word} {n : Nat} (hn : n < 2 ^ 8) : opField w0 = BitVec.ofNat 8 n ↔ w0.toNat % 2 ^ 8 = n := by
  rw [← BitVec.toNat_inj, opField, byte_toNat, BitVec.toNat_ofNat, Nat.mod_eq_of_lt hn, Nat.pow_zero, Nat.div_one]

theorem byteField_eq (w0 : Word) (k : Nat) :
    (w0.extractLsb' k 8).setWidth 32 = BitVec.ofNat 32 (w0.toNat / 2 ^ k % 2 ^ 8) := by
  rw [← byte_toNat, BitVec.ofNat_toNat]

theorem klenField_eq (w0 : Word) : klenField w0 = BitVec.ofNat 32 (w0.toNat / 2 ^ 8 % 2 ^ 8) := byteField_eq w0 8

theorem nlenField_eq (w0 : Word) : nlenField w0 = BitVec.ofNat 32 (w0.toNat / 2 ^ 16 % 2 ^ 8) := byteField_eq w0 16

theorem initReserved_eq_zero_iff {w0 : Word} : initReserved w0 = 0#8 ↔ w0.toNat / 2 ^ 24 = 0 := by
  have hw := w0.isLt
  rw [← BitVec.toNat_inj, initReserved, byte_toNat, BitVec.toNat_zero]
  omega

theorem xorReserved_eq_zero_iff {w0 : Word} : xorReserved w0 = 0#24 ↔ w0.toNat / 2 ^ 8 = 0 := by
  have hw := w0.isLt
  rw [← BitVec.toNat_inj, xorReserved, BitVec.extractLsb'_toNat, Nat.shiftRight_eq_div_pow, BitVec.toNat_zero]
  omega

/-! ### The decoder's answers (R58) -/

/-- The decoder with its tests read on the header as a number. -/
theorem decode_eq (w : Words) : decode w =
    if w.w0.toNat % 2 ^ 8 = 1 then
      if w.w0.toNat / 2 ^ 24 = 0 then .ok (.init (BitVec.ofNat 32 (w.w0.toNat / 2 ^ 8 % 2 ^ 8))
        (BitVec.ofNat 32 (w.w0.toNat / 2 ^ 16 % 2 ^ 8)) w.w1 w.w2 w.w3) else .error .reservedBits
    else if w.w0.toNat % 2 ^ 8 = 2 then
      if w.w0.toNat / 2 ^ 8 = 0 then .ok (.encrypt w.w1 w.w2 w.w3) else .error .reservedBits
    else if w.w0.toNat % 2 ^ 8 = 3 then
      if w.w0.toNat / 2 ^ 8 = 0 then .ok (.decrypt w.w1 w.w2 w.w3) else .error .reservedBits
    else .error .reservedOpcode := by
  simp only [decode, opField_eq_iff (n := 1) (by decide), opField_eq_iff (n := 2) (by decide),
    opField_eq_iff (n := 3) (by decide), initReserved_eq_zero_iff, xorReserved_eq_zero_iff, klenField_eq, nlenField_eq]

theorem decode_init {w : Words} (hop : w.w0.toNat % 2 ^ 8 = 1) (hres : w.w0.toNat / 2 ^ 24 = 0) :
    decode w = .ok (.init (BitVec.ofNat 32 (w.w0.toNat / 2 ^ 8 % 2 ^ 8)) (BitVec.ofNat 32 (w.w0.toNat / 2 ^ 16 % 2 ^ 8))
      w.w1 w.w2 w.w3) := by
  rw [decode_eq, if_pos hop, if_pos hres]

/-- A header written as the digits of INIT's fields is read back digit by digit. -/
theorem decode_init_of_header {w : Words} {klen nlen : Word} (hk : klen.toNat < 2 ^ 8) (hn : nlen.toNat < 2 ^ 8)
    (hw : w.w0.toNat = nlen.toNat * 2 ^ 16 + klen.toNat * 2 ^ 8 + 1) :
    decode w = .ok (.init klen nlen w.w1 w.w2 w.w3) := by
  have hklen : w.w0.toNat / 2 ^ 8 % 2 ^ 8 = klen.toNat := by omega
  have hnlen : w.w0.toNat / 2 ^ 16 % 2 ^ 8 = nlen.toNat := by omega
  rw [decode_init (by omega) (by omega), hklen, hnlen, BitVec.ofNat_toNat, BitVec.ofNat_toNat, BitVec.setWidth_eq,
    BitVec.setWidth_eq]

theorem decode_encrypt {w : Words} (hw : w.w0.toNat = 2) : decode w = .ok (.encrypt w.w1 w.w2 w.w3) := by
  rw [decode_eq, if_neg (by omega), if_pos (by omega), if_pos (by omega)]

theorem decode_decrypt {w : Words} (hw : w.w0.toNat = 3) : decode w = .ok (.decrypt w.w1 w.w2 w.w3) := by
  rw [decode_eq, if_neg (by omega), if_neg (by omega), if_pos (by omega), if_pos (by omega)]

theorem decode_illegal {w : Words} (hinit : ¬ (w.w0.toNat % 2 ^ 8 = 1 ∧ w.w0.toNat / 2 ^ 24 = 0))
    (hxor : ¬ ((w.w0.toNat % 2 ^ 8 = 2 ∨ w.w0.toNat % 2 ^ 8 = 3) ∧ w.w0.toNat / 2 ^ 8 = 0)) :
    ∃ reason, decode w = .error reason := by
  rw [decode_eq]
  split
  · next h1 => exact ⟨_, if_neg fun hres => hinit ⟨h1, hres⟩⟩
  split
  · next h2 => exact ⟨_, if_neg fun hres => hxor ⟨.inl h2, hres⟩⟩
  split
  · next h3 => exact ⟨_, if_neg fun hres => hxor ⟨.inr h3, hres⟩⟩
  · exact ⟨_, rfl⟩

/-- Settles O3: the decoder's four answers. -/
theorem decoderReadsHeaderFields : Obligations.DecoderReadsHeaderFields := fun _ =>
  ⟨fun h => decode_init h.1 h.2, fun h => decode_encrypt (by omega), fun h => decode_decrypt (by omega),
    fun h => decode_illegal h.1 h.2⟩

/-- The three ways in which words decode to a command, with their header as a number. -/
inductive DecodesAs (w : Words) : Instr → Prop where
  | init (klen nlen : Word) (hk : klen.toNat < 2 ^ 8) (hn : nlen.toNat < 2 ^ 8)
      (hw : w.w0.toNat = nlen.toNat * 2 ^ 16 + klen.toNat * 2 ^ 8 + 1) : DecodesAs w (.init klen nlen w.w1 w.w2 w.w3)
  | encrypt (hw : w.w0.toNat = 2) : DecodesAs w (.encrypt w.w1 w.w2 w.w3)
  | decrypt (hw : w.w0.toNat = 3) : DecodesAs w (.decrypt w.w1 w.w2 w.w3)

theorem decodesAs_of_decode {w : Words} {i : Instr} (h : decode w = .ok i) : DecodesAs w i := by
  by_cases hinit : w.w0.toNat % 2 ^ 8 = 1 ∧ w.w0.toNat / 2 ^ 24 = 0
  · obtain ⟨hop, hres⟩ := hinit
    rw [decode_init hop hres] at h
    cases h
    refine .init _ _ ?_ ?_ ?_ <;> simp only [BitVec.toNat_ofNat] <;> omega
  by_cases hxor : (w.w0.toNat % 2 ^ 8 = 2 ∨ w.w0.toNat % 2 ^ 8 = 3) ∧ w.w0.toNat / 2 ^ 8 = 0
  · obtain ⟨hop | hop, hres⟩ := hxor
    · have hw : w.w0.toNat = 2 := by omega
      rw [decode_encrypt hw] at h
      cases h
      exact .encrypt hw
    · have hw : w.w0.toNat = 3 := by omega
      rw [decode_decrypt hw] at h
      cases h
      exact .decrypt hw
  · obtain ⟨reason, herror⟩ := decode_illegal hinit hxor
    rw [herror] at h
    cases h

/-! ### Encoding and decoding undo each other (R50, R51, R58, R61) -/

theorem fitsByte_iff {v : Word} : fitsByte v = true ↔ v.toNat < 2 ^ 8 := decide_eq_true_iff

/-- A byte count put above the bits in use; `or_shifted_byte_toNat` for a word that holds a byte. -/
theorem or_shifted_byteCount_toNat {x v : Word} {k : Nat} (hv : v.toNat < 2 ^ 8) (hk : k ≤ 24) (hx : x.toNat < 2 ^ k) :
    (x ||| v <<< k).toNat = x.toNat + 2 ^ k * v.toNat := by
  have hbyte : (v.setWidth 8).toNat = v.toNat := by rw [BitVec.toNat_setWidth, Nat.mod_eq_of_lt hv]
  have hword : (v.setWidth 8).setWidth 32 = v :=
    BitVec.eq_of_toNat_eq (by rw [BitVec.toNat_setWidth_of_le (by decide), hbyte])
  have h := or_shifted_byte_toNat (v.setWidth 8) hk hx
  rwa [hword, hbyte] at h

/-- The header of INIT: the opcode, and the two byte counts put above it. -/
theorem encode_init_header_toNat {klen nlen : Word} (hk : klen.toNat < 2 ^ 8) (hn : nlen.toNat < 2 ^ 8)
    (kaddr naddr ctr : Word) :
    (encode (.init klen nlen kaddr naddr ctr)).w0.toNat = nlen.toNat * 2 ^ 16 + klen.toNat * 2 ^ 8 + 1 := by
  have hor : (encode (.init klen nlen kaddr naddr ctr)).w0 = 1#32 ||| klen <<< 8 ||| nlen <<< 16 := by
    simp only [encode, BitVec.or_assoc, BitVec.or_comm]
  have hone : (1#32).toNat = 1 := rfl
  have hklen := or_shifted_byteCount_toNat (x := 1#32) hk (k := 8) (by decide) (by decide)
  rw [hone] at hklen
  rw [hor, or_shifted_byteCount_toNat hn (by decide) (by omega), hklen]
  omega

/-- Settles O5: for INIT the digits of the header encoded are read back, for the others the header is the opcode. -/
theorem decodeOfEncode : Obligations.DecodeOfEncode := by
  intro i hi
  cases i with
  | init klen nlen kaddr naddr ctr =>
    simp only [WellFormed, Bool.and_eq_true, fitsByte_iff] at hi
    obtain ⟨hk, hn⟩ := hi
    exact decode_init_of_header hk hn (encode_init_header_toNat hk hn kaddr naddr ctr)
  | encrypt daddr saddr len => exact decode_encrypt rfl
  | decrypt daddr saddr len => exact decode_decrypt rfl

/-- Settles O6: the header of a command that decodes holds nothing but the fields it is encoded from. -/
theorem encodeOfDecode : Obligations.EncodeOfDecode := by
  intro w i h
  cases decodesAs_of_decode h with
  | init klen nlen hk hn hw =>
    have hheader : (encode (.init klen nlen w.w1 w.w2 w.w3)).w0 = w.w0 :=
      BitVec.eq_of_toNat_eq ((encode_init_header_toNat hk hn ..).trans hw.symm)
    exact ⟨by rw [WellFormed, fitsByte_iff.2 hk, fitsByte_iff.2 hn, Bool.and_self],
      congrArg (fun w0 => Words.mk w0 w.w1 w.w2 w.w3) hheader⟩
  | encrypt hw =>
    have hheader : 2#32 = w.w0 := BitVec.eq_of_toNat_eq hw.symm
    exact ⟨rfl, by rw [encode, hheader]⟩
  | decrypt hw =>
    have hheader : 3#32 = w.w0 := BitVec.eq_of_toNat_eq hw.symm
    exact ⟨rfl, by rw [encode, hheader]⟩

/-! ### The assembler (R61, R62) -/

theorem byteOperand_eq_some {n : Nat} {v : Word} : byteOperand n = some v ↔ n ≤ 255 ∧ BitVec.ofNat 32 n = v := by
  rw [byteOperand, Option.ite_none_right_eq_some, Option.some.injEq, Nat.lt_iff_le_pred (by decide)]
  rfl

theorem wordOperand_eq_some {n : Nat} {v : Word} : wordOperand n = some v ↔ n < 2 ^ 32 ∧ BitVec.ofNat 32 n = v := by
  rw [wordOperand, Option.ite_none_right_eq_some, Option.some.injEq]

theorem assemble_init (klen nlen kaddr naddr ctr : Nat) : assemble (.init klen nlen kaddr naddr ctr) =
    if klen ≤ 255 ∧ nlen ≤ 255 ∧ kaddr < 2 ^ 32 ∧ naddr < 2 ^ 32 ∧ ctr < 2 ^ 32 then
      some (encode (.init (BitVec.ofNat 32 klen) (BitVec.ofNat 32 nlen) (BitVec.ofNat 32 kaddr) (BitVec.ofNat 32 naddr)
        (BitVec.ofNat 32 ctr)))
    else none := by
  simp only [assemble, expandPseudo, assembleCore]
  split
  · next hk hn hka hna hc =>
    rw [byteOperand_eq_some] at hk hn
    rw [wordOperand_eq_some] at hka hna hc
    rw [hk.2, hn.2, hka.2, hna.2, hc.2, if_pos ⟨hk.1, hn.1, hka.1, hna.1, hc.1⟩]
  · next hnone =>
    simp only [byteOperand_eq_some, wordOperand_eq_some] at hnone
    exact (if_neg fun ⟨hk, hn, hka, hna, hc⟩ =>
      hnone _ _ _ _ _ ⟨hk, rfl⟩ ⟨hn, rfl⟩ ⟨hka, rfl⟩ ⟨hna, rfl⟩ ⟨hc, rfl⟩).symm

theorem assemble_encrypt (daddr saddr len : Nat) : assemble (.encrypt daddr saddr len) =
    if daddr < 2 ^ 32 ∧ saddr < 2 ^ 32 ∧ len < 2 ^ 32 then
      some (encode (.encrypt (BitVec.ofNat 32 daddr) (BitVec.ofNat 32 saddr) (BitVec.ofNat 32 len)))
    else none := by
  simp only [assemble, expandPseudo, assembleCore]
  split
  · next hd hs hl =>
    rw [wordOperand_eq_some] at hd hs hl
    rw [hd.2, hs.2, hl.2, if_pos ⟨hd.1, hs.1, hl.1⟩]
  · next hnone =>
    simp only [wordOperand_eq_some] at hnone
    exact (if_neg fun ⟨hd, hs, hl⟩ => hnone _ _ _ ⟨hd, rfl⟩ ⟨hs, rfl⟩ ⟨hl, rfl⟩).symm

/-- The two streaming commands differ in their opcode only, in what they assemble to and in when they do. -/
theorem assemble_decrypt (daddr saddr len : Nat) : assemble (.decrypt daddr saddr len) =
    (assemble (.encrypt daddr saddr len)).map fun w => { w with w0 := 3#32 } := by
  simp only [assemble, expandPseudo, assembleCore]
  split <;> rfl

theorem assemble_raw (w0 w1 w2 w3 : Nat) : assemble (.raw w0 w1 w2 w3) =
    if w0 < 2 ^ 32 ∧ w1 < 2 ^ 32 ∧ w2 < 2 ^ 32 ∧ w3 < 2 ^ 32 then
      some ⟨BitVec.ofNat 32 w0, BitVec.ofNat 32 w1, BitVec.ofNat 32 w2, BitVec.ofNat 32 w3⟩
    else none := by
  simp only [assemble, expandPseudo, assembleCore]
  split
  · next h0 h1 h2 h3 =>
    rw [wordOperand_eq_some] at h0 h1 h2 h3
    rw [h0.2, h1.2, h2.2, h3.2, if_pos ⟨h0.1, h1.1, h2.1, h3.1⟩]
  · next hnone =>
    simp only [wordOperand_eq_some] at hnone
    exact (if_neg fun ⟨h0, h1, h2, h3⟩ => hnone _ _ _ _ ⟨h0, rfl⟩ ⟨h1, rfl⟩ ⟨h2, rfl⟩ ⟨h3, rfl⟩).symm

theorem operand_toNat {n : Nat} (h : n < 2 ^ 32) : (BitVec.ofNat 32 n).toNat = n := by
  rw [BitVec.toNat_ofNat, Nat.mod_eq_of_lt h]

/-- Settles O7: what each kind of line assembles to, its words read as numbers. -/
theorem assemblerEncodesOrRejects : Obligations.AssemblerEncodesOrRejects := by
  refine ⟨fun klen nlen kaddr naddr ctr => ⟨?_, fun hbad => ?_⟩, fun daddr saddr len => ⟨?_, fun hbad => ?_⟩,
    fun w0 w1 w2 w3 => ⟨?_, fun hbad => ?_⟩⟩
  · rintro ⟨hk, hn, hka, hna, hc⟩
    have hk' : (BitVec.ofNat 32 klen).toNat = klen := operand_toNat (by omega)
    have hn' : (BitVec.ofNat 32 nlen).toNat = nlen := operand_toNat (by omega)
    refine ⟨_, (assemble_init ..).trans (if_pos ⟨hk, hn, hka, hna, hc⟩), ?_, operand_toNat hka, operand_toNat hna,
      operand_toNat hc⟩
    rw [encode_init_header_toNat (by omega) (by omega), hk', hn']
  · rw [assemble_init, if_neg hbad]
  · rintro ⟨hd, hs, hl⟩
    have henc := (assemble_encrypt daddr saddr len).trans (if_pos ⟨hd, hs, hl⟩)
    exact ⟨_, _, henc, by rw [assemble_decrypt, henc, Option.map_some], rfl, rfl, operand_toNat hd, operand_toNat hs,
      operand_toNat hl, operand_toNat hd, operand_toNat hs, operand_toNat hl⟩
  · rw [assemble_decrypt, assemble_encrypt, if_neg hbad]
    exact ⟨rfl, rfl⟩
  · rintro ⟨h0, h1, h2, h3⟩
    exact ⟨_, (assemble_raw ..).trans (if_pos ⟨h0, h1, h2, h3⟩), operand_toNat h0, operand_toNat h1, operand_toNat h2,
      operand_toNat h3⟩
  · rw [assemble_raw, if_neg hbad]

/-- Settles O8: a pseudo-instruction is expanded before it is assembled, and its expansion stands for itself. -/
theorem pseudoInstructionsExpand : Obligations.PseudoInstructionsExpand := fun _ _ _ => ⟨rfl, rfl⟩

/-! ### The common forms (R63) -/

theorem exec_init_wrongKeySize {klen : Word} (hk : klen ≠ 32#32) (nlen kaddr naddr ctr : Word) (s : State) :
    exec (.init klen nlen kaddr naddr ctr) s = .next (respond .wrongKeySize (failConstruction s)) := by
  rw [exec_init, execInit, if_pos hk]

theorem exec_init_wrongNonceSize {nlen : Word} (h8 : nlen ≠ 8#32) (h12 : nlen ≠ 12#32) (kaddr naddr ctr : Word)
    (s : State) :
    exec (.init 32#32 nlen kaddr naddr ctr) s = .next (respond .wrongNonceSize (failConstruction s)) := by
  rw [exec_init, execInit, if_neg (not_not_intro rfl), if_pos ⟨h8, h12⟩]

/-- Settles O4: each header is the number of its fields, and the two bad sizes fail their check. -/
theorem commonFormHeaders : Obligations.CommonFormHeaders := by
  intro w1 w2 w3
  refine ⟨?_, ?_, decode_encrypt rfl, decode_decrypt rfl, ?_, ?_, fun s => ⟨?_, ?_⟩⟩
  · exact decode_init_of_header (klen := 32#32) (nlen := 12#32) (by decide) (by decide) rfl
  · exact decode_init_of_header (klen := 32#32) (nlen := 8#32) (by decide) (by decide) rfl
  · exact decode_init_of_header (klen := 16#32) (nlen := 12#32) (by decide) (by decide) rfl
  · exact decode_init_of_header (klen := 32#32) (nlen := 10#32) (by decide) (by decide) rfl
  · exact ⟨_, exec_init_wrongKeySize (by decide) .., rfl⟩
  · exact ⟨_, exec_init_wrongNonceSize (by decide) (by decide) .., rfl⟩

/-! ### Four words on the command port (R48, R54 to R60) -/

theorem runWords_of_illegal {w : Words} {reason : Illegal} {s : State} (hf : s.engine.faulted = none)
    (hw : decode w = .error reason) : runWords w s = .next (respond .illegalCommand s) := by
  simp only [runWords, hf, hw, execIllegal]

/-- Settles O12: such a header is decoded ILLEGAL, and the answer is given on the engine `focus` turns to. -/
theorem reservedEncodingsAnswered : Obligations.ReservedEncodingsAnswered := by
  intro s k w rest e hin he hrun hreserved
  obtain ⟨reason, hw⟩ : ∃ reason, decode w = .error reason := decode_illegal (by omega) (by omega)
  obtain ⟨hk, -⟩ := List.getElem?_eq_some_iff.1 he
  obtain ⟨u, hf⟩ := focus_of_lt (s := s.pop) hk
  obtain ⟨hengine, -, hindex, hmem, hadm, hinputs, hdraws⟩ := focus_eq_some hf
  obtain ⟨hbefore, hafter⟩ := focus_around hf
  cases Option.some.inj (hengine.symm.trans he)
  refine ⟨respond .illegalCommand u, ?_, rfl, hindex, hbefore, hafter, hmem, hadm, ?_, hdraws⟩
  · rw [step_issue hin hf, runWords_of_illegal hrun hw, settle]
  · rw [respond_inputs, hinputs, State.pop_inputs, hin, List.tail_cons]

theorem resultWord_le_four (c : ResultCode) : (resultWord c).toNat ≤ 4 := by cases c <;> decide

/-- Settles O51: of the four things four words can do, two deliver one result word and two leave the engine faulted. -/
theorem oneResultWordPerCommand : Obligations.OneResultWordPerCommand := by
  intro s t k w rest hin h
  obtain ⟨u, v, hu, hv, hruns⟩ := step_issue_next hin h
  refine ⟨u.engine, v.engine, hu, hv, ?_⟩
  cases hruns with
  | stopped fault hf ht => exact .inr ⟨by simp [ht, hf], by rw [ht]⟩
  | illegal reason hf hw ht =>
    subst ht
    exact .inl ⟨hf, hf, _, rfl, resultWord_le_four .illegalCommand⟩
  | completes i hf hw ht =>
    obtain ⟨-, hfaulted, c, hresults⟩ := exec_keeps ht
    exact .inl ⟨hf, hfaulted.trans hf, _, hresults, resultWord_le_four c⟩
  | faults i fault hf hw he hi ht =>
    subst ht
    exact .inr ⟨by simp, rfl⟩

theorem decodeTableWord_eq_some {nbits w : Nat} {i : Instr} (h : decodeTableWord nbits w = some i) :
    decode (wordsOfBits nbits w) = .ok i := by
  unfold decodeTableWord at h
  split at h
  · next hw => rw [hw, Option.some.inj h]
  · cases h

/-- Taking a placed instruction from the list leaves the state it was placed in. -/
theorem pop_withFetchWord (s : State) (nbits w : Nat) : (s.withFetchWord nbits w).pop = s := rfl

/-- Settles O10: the placed words are the next action, and they are given to the engine the host already drives. -/
theorem placedInstructionRunsNext : Obligations.PlacedInstructionRunsNext := by
  intro s nbits w i hrun hw
  have hfocus : (s.withFetchWord nbits w).pop.focus s.index = some s := by rw [pop_withFetchWord, focus_index]
  rw [step_issue (State.withFetchWord_inputs ..) hfocus, runWords_of_decode hrun (decodeTableWord_eq_some hw), runCommand]
  cases exec i s <;> rfl

end Sys2Proof.Machine
end

section
/-! PROOF. INIT (40_state_init.md). A bad size ends in `failConstruction`, which clears `READY`; valid sizes with the
duties of R123 met end in `initNext`, whose `S` is fixed by the key bytes, the nonce bytes and CTR. So an INIT forgets
the engine state it replaces, and the same INIT after an ENCRYPT that left key and nonce alone gives the same keystream. -/

namespace Sys2Proof.Machine

/-! ### INIT of a bad size (R65, R66, R72) -/

/-- Settles O16: the key-size check is made first, and what it refuses is `failConstruction`. -/
theorem wrongKeySizeFailsFirst : Obligations.WrongKeySizeFailsFirst := by
  intro klen nlen kaddr naddr ctr s hk
  exact ⟨_, exec_init_wrongKeySize hk .., rfl, rfl, rfl, rfl, rfl, rfl, rfl⟩

/-- Settles O17: after the key-size check comes the nonce-size check, and what it refuses is `failConstruction`. -/
theorem wrongNonceSizeFails : Obligations.WrongNonceSizeFails := by
  intro nlen kaddr naddr ctr s h8 h12
  exact ⟨_, exec_init_wrongNonceSize h8 h12 .., rfl, rfl, rfl, rfl, rfl, rfl, rfl⟩

/-- The sizes alone say that an INIT fails and with which result code. -/
theorem exec_init_of_bad_size {klen nlen : Word} (h : klen ≠ 32#32 ∨ (nlen ≠ 8#32 ∧ nlen ≠ 12#32)) :
    ∃ c, ∀ (kaddr naddr ctr : Word) (s : State),
      exec (.init klen nlen kaddr naddr ctr) s = .next (respond c (failConstruction s)) := by
  by_cases hk : klen = 32#32
  · subst hk
    obtain ⟨h8, h12⟩ := h.resolve_left (not_not_intro rfl)
    exact ⟨.wrongNonceSize, exec_init_wrongNonceSize h8 h12⟩
  · exact ⟨.wrongKeySize, exec_init_wrongKeySize hk nlen⟩

/-- Settles O24: `failConstruction` has cleared `READY`, so both commands answer NOT_CONSTRUCTED. -/
theorem failedInitDiscardsInstance : Obligations.FailedInitDiscardsInstance := by
  intro klen nlen kaddr naddr ctr s hbad
  obtain ⟨c, hc⟩ := exec_init_of_bad_size hbad
  have hready : (respond c (failConstruction s)).engine.ready = false := failConstruction_engine_ready s
  exact ⟨_, hc .., fun daddr saddr len => ⟨(exec_encrypt ..).trans (xorCommand_notConstructed hready),
    (exec_decrypt ..).trans (xorCommand_notConstructed hready)⟩⟩

/-! ### INIT of valid sizes (R64, R68 to R71) -/

theorem exec_init_of_duties {nlen kaddr naddr : Word} (ctr : Word) {s : State} (hn : nlen = 8#32 ∨ nlen = 12#32)
    (h : InitDuties s kaddr naddr nlen) :
    exec (.init 32#32 nlen kaddr naddr ctr) s = .next (initNext nlen kaddr naddr ctr s) :=
  (exec_init ..).trans (execInit_of_duties ctr hn h)

@[simp] theorem initNext_layout (nlen kaddr naddr ctr : Word) (s : State) :
    (initNext nlen kaddr naddr ctr s).engine.layout = if nlen = 8#32 then .ref else .ietf := by
  unfold initNext
  split <;> rfl

@[simp] theorem initNext_draws (nlen kaddr naddr ctr : Word) (s : State) :
    (initNext nlen kaddr naddr ctr s).draws = s.draws := by
  unfold initNext
  split <;> rfl

theorem initNext_S_ref (kaddr naddr ctr : Word) (s : State) :
    (initNext 8#32 kaddr naddr ctr s).engine.S =
      refWords (bytesAt s.mem kaddr.toNat 32) (bytesAt s.mem naddr.toNat 8) := by
  simp [initNext]

theorem initNext_S_ietf (kaddr naddr ctr : Word) (s : State) :
    (initNext 12#32 kaddr naddr ctr s).engine.S =
      ietfWords (bytesAt s.mem kaddr.toNat 32) (bytesAt s.mem naddr.toNat 12) ctr := by
  simp [initNext]

/-- Behind the constants stand the key words and the four words the layout gives. -/
theorem instanceWords_drop_constants (m : Memory) (a : Nat) (w12 w13 w14 w15 : Word) :
    (instanceWords (bytesAt m a 32) w12 w13 w14 w15).toList.drop 4 =
      (List.range 8).map (fun i => le32At m (a + 4 * i)) ++ [w12, w13, w14, w15] := by
  rw [instanceWords_toList]
  rfl

/-- Settles O18: the words of `refWords`, read from host memory. -/
theorem initBuildsReferenceLayout : Obligations.InitBuildsReferenceLayout := by
  intro kaddr naddr ctr s hd
  have hwords : (initNext 8#32 kaddr naddr ctr s).engine.S.toList.drop 4 =
      (List.range 8).map (fun i => le32At s.mem (kaddr.toNat + 4 * i)) ++
        [0#32, 0#32, le32At s.mem naddr.toNat, le32At s.mem (naddr.toNat + 4)] := by
    rw [initNext_S_ref, refWords, instanceWords_drop_constants, wordAt_bytesAt (by decide), wordAt_bytesAt (by decide)]
    rfl
  obtain ⟨hb, ha, hadm, hin⟩ := initNext_keeps 8#32 kaddr naddr ctr s
  exact ⟨_, exec_init_of_duties ctr (.inl rfl) hd, hwords, initNext_ready .., initNext_layout .., initNext_results ..,
    initNext_mem .., hb, ha, hadm, hin, initNext_draws ..⟩

/-- Settles O19: the words of `ietfWords`, read from host memory. -/
theorem initBuildsIetfLayout : Obligations.InitBuildsIetfLayout := by
  intro kaddr naddr ctr s hd
  have hwords : (initNext 12#32 kaddr naddr ctr s).engine.S.toList.drop 4 =
      (List.range 8).map (fun i => le32At s.mem (kaddr.toNat + 4 * i)) ++
        [ctr, le32At s.mem naddr.toNat, le32At s.mem (naddr.toNat + 4), le32At s.mem (naddr.toNat + 8)] := by
    rw [initNext_S_ietf, ietfWords, instanceWords_drop_constants, wordAt_bytesAt (by decide), wordAt_bytesAt (by decide),
      wordAt_bytesAt (by decide)]
    rfl
  obtain ⟨hb, ha, hadm, hin⟩ := initNext_keeps 12#32 kaddr naddr ctr s
  exact ⟨_, exec_init_of_duties ctr (.inr rfl) hd, hwords, initNext_ready .., initNext_layout .., initNext_results ..,
    initNext_mem .., hb, ha, hadm, hin, initNext_draws ..⟩

/-- Settles O21: the flags and the result of `initNext`. -/
theorem initOfValidSizesSucceeds : Obligations.InitOfValidSizesSucceeds := by
  intro nlen kaddr naddr ctr s hn hd
  exact ⟨_, exec_init_of_duties ctr hn hd, initNext_ready .., initNext_layout .., initNext_results ..⟩

/-! ### What INIT does not depend on (R73) -/

/-- A constructed state holds nothing of the `S` and flags before it. -/
theorem initNext_forgets {s s' : State} {S : Words16} {ready : Bool} {layout : Layout}
    (hs' : s' = { s with engine := { s.engine with S := S, ready := ready, layout := layout } })
    (nlen kaddr naddr ctr : Word) : initNext nlen kaddr naddr ctr s' = initNext nlen kaddr naddr ctr s := by
  subst hs'
  unfold initNext
  split <;> rfl

/-- Settles O23: the duties of an INIT of valid sizes see the platform alone, and either outcome forgets `S`
and the flags. -/
theorem initForgetsOldInstance : Obligations.InitForgetsOldInstance := by
  intro klen nlen kaddr naddr ctr s s' S ready layout hs'
  have hadm : s'.admitted = s.admitted := by rw [hs']
  refine ⟨fun ⟨hk, hn⟩ => ?_, fun hbad => ?_⟩
  · subst hk
    by_cases hd : InitDuties s kaddr naddr nlen
    · rw [exec_init_of_duties ctr hn hd, exec_init_of_duties ctr hn ((initDuties_congr hadm).2 hd), initNext_forgets hs']
    · rw [exec_init, exec_init, execInit_of_not_duties ctr hn hd,
        execInit_of_not_duties ctr hn (mt (initDuties_congr hadm).1 hd)]
  · obtain ⟨c, hc⟩ := exec_init_of_bad_size hbad
    subst hs'
    exact ⟨_, _, hc .., hc .., rfl, rfl, rfl, rfl⟩

/-! ### INIT, ENCRYPT, the same INIT, DECRYPT (R102) -/

theorem bytesAt_congr {m m' : Memory} {a n : Nat} (h : ∀ i < n, m'.read (a + i) = m.read (a + i)) :
    bytesAt m' a n = bytesAt m a n :=
  List.map_congr_left fun i hi => h i (List.mem_range.1 hi)

/-- Of host memory, `S` sees the key and nonce bytes alone. -/
theorem initNext_S_congr {nlen kaddr naddr : Word} (ctr : Word) {s t : State} (hn : nlen = 8#32 ∨ nlen = 12#32)
    (hkey : ∀ i < 32, t.mem.read (kaddr.toNat + i) = s.mem.read (kaddr.toNat + i))
    (hnonce : ∀ i < nlen.toNat, t.mem.read (naddr.toNat + i) = s.mem.read (naddr.toNat + i)) :
    (initNext nlen kaddr naddr ctr t).engine.S = (initNext nlen kaddr naddr ctr s).engine.S := by
  rcases hn with rfl | rfl
  · rw [initNext_S_ref, initNext_S_ref, bytesAt_congr hkey, bytesAt_congr (n := 8) hnonce]
  · rw [initNext_S_ietf, initNext_S_ietf, bytesAt_congr hkey, bytesAt_congr (n := 12) hnonce]

@[simp] theorem xorNext_results (daddr saddr len : Word) (s : State) :
    (xorNext daddr saddr len s).engine.results = s.engine.results ++ [resultWord .ok] := rfl

/-- XOR with one keystream is its own inverse: where the second command starts from the `S` the first started from and
reads what the first wrote, it writes the bytes the first read. -/
theorem xorNext_read_back {daddr saddr back len : Word} {s t : State} {i : Nat} (hs : s.mem.wf) (ht : t.mem.wf)
    (hd : XorDuties s daddr saddr len) (hback : XorDuties t back daddr len)
    (hmem : t.mem = (xorNext daddr saddr len s).mem) (hS : t.engine.S = s.engine.S) (hi : i < len.toNat) :
    (xorNext back daddr len t).mem.read (back.toNat + i) = s.mem.read (saddr.toNat + i) := by
  rw [xorNext_read_inside ht hback hi, hmem, xorNext_read_inside hs hd hi, hS, BitVec.xor_assoc, BitVec.xor_self,
    BitVec.xor_zero]

/-- Settles O44: key and nonce lie outside the ciphertext, so the second INIT builds the `S` of the first, and the
second XOR undoes the first. -/
theorem encryptThenDecryptRoundTrip : Obligations.EncryptThenDecryptRoundTrip := by
  intro nlen kaddr naddr ctr daddr saddr back len s hn hm hinit hxor hback hkey hnonce
  generalize h2 : xorNext daddr saddr len (initNext nlen kaddr naddr ctr s) = s2
  have wf1 : (initNext nlen kaddr naddr ctr s).mem.wf := by rwa [initNext_mem]
  have wf2 : s2.mem.wf := h2 ▸ xorNext_wf wf1 hxor.destination
  have adm2 : s2.admitted = s.admitted := by rw [← h2, (xorNext_keeps ..).admitted, initNext_admitted]
  have outside : ∀ a, a < daddr.toNat ∨ daddr.toNat + len.toNat ≤ a → s2.mem.read a = s.mem.read a := fun a ha => by
    rw [← h2, xorNext_read_outside ha, initNext_mem]
  have sameS : (initNext nlen kaddr naddr ctr s2).engine.S = (initNext nlen kaddr naddr ctr s).engine.S :=
    initNext_S_congr ctr hn (fun i hi => outside _ (hkey i hi)) fun i hi => outside _ (hnonce i hi)
  have duties1 : XorDuties (initNext nlen kaddr naddr ctr s) daddr saddr len :=
    (xorDuties_congr (initNext_admitted ..)).2 hxor
  have duties3 : XorDuties (initNext nlen kaddr naddr ctr s2) back daddr len :=
    (xorDuties_congr ((initNext_admitted ..).trans adm2)).2 hback
  refine ⟨_, s2, _, _, exec_init_of_duties ctr hn hinit, ?_,
    exec_init_of_duties ctr hn ((initDuties_congr adm2).2 hinit),
    (exec_decrypt ..).trans (xorCommand_of_duties (initNext_ready ..) duties3), ?_, fun i hi => ?_⟩
  · rw [exec_encrypt, xorCommand_of_duties (initNext_ready ..) duties1, h2]
  · simp [← h2, resultWord, codeValue]
  · have mem3 : (initNext nlen kaddr naddr ctr s2).mem = s2.mem := initNext_mem ..
    rw [xorNext_read_back wf1 (mem3 ▸ wf2) duties1 duties3 (mem3.trans (congrArg State.mem h2.symm)) sameS hi,
      initNext_mem]

end Sys2Proof.Machine
end

section
/-! PROOF. The block function (41_block_function.md). A round is a fold of QRX over lanes of four indices. Where no two
lanes share an index, a fold leaves on each lane the quarter-round of the words it started from, whatever the order of
the lanes (R81). A byte of a serialised array is found by stepping over the words before it, four bytes each. -/

namespace Sys2Proof.Machine

/-! ### The quarter-round and QRX (R75, R76) -/

/-- Settles O25: the eight steps of R75, computed. -/
theorem quarterRoundExamples : Obligations.QuarterRoundExamples := by
  unfold Obligations.QuarterRoundExamples
  decide

theorem qrx_getElem_of_notMem {i j k l m : Fin 16} (X : Words16) (hm : m ∉ [i, j, k, l]) :
    (qrx i j k l X)[m] = X[m] := by
  simp only [List.mem_cons, List.not_mem_nil, or_false, not_or, Fin.ext_iff, ne_comm (a := m.val)] at hm
  obtain ⟨hi, hj, hk, hl⟩ := hm
  simp [qrx, hi, hj, hk, hl]

/-- The words are distinct, so no later write of QRX hides an earlier one. -/
theorem qrx_getElem_lane {i j k l : Fin 16} (X : Words16) (hd : [i, j, k, l].Nodup) :
    ((qrx i j k l X)[i], (qrx i j k l X)[j], (qrx i j k l X)[k], (qrx i j k l X)[l]) =
      quarterRound X[i] X[j] X[k] X[l] := by
  simp only [List.nodup_cons, List.mem_cons, List.not_mem_nil, or_false, not_or, Fin.ext_iff, ← ne_eq] at hd
  obtain ⟨⟨hij, hik, hil⟩, ⟨hjk, hjl⟩, hkl, -⟩ := hd
  simp [qrx, hij.symm, hik.symm, hil.symm, hjk.symm, hjl.symm, hkl.symm]

/-- Settles O26: the four writes hit four places, and no other. -/
theorem qrxWritesFourWords : Obligations.QrxWritesFourWords := fun _ _ _ _ X hd =>
  ⟨qrx_getElem_lane X hd, fun _ hm => qrx_getElem_of_notMem X hm⟩

/-! ### Rounds as folds over lanes (R77, R78, R81) -/

/-- A lane: the four indices one QRX works on. -/
abbrev Lane : Type := Fin 16 × Fin 16 × Fin 16 × Fin 16

/-- The indices QRX writes. -/
def Lane.indices (g : Lane) : List (Fin 16) := [g.1, g.2.1, g.2.2.1, g.2.2.2]

/-- QRX on a lane. -/
def qrxLane (X : Words16) (g : Lane) : Words16 := qrx g.1 g.2.1 g.2.2.1 g.2.2.2 X

/-- The four words of a lane. -/
def wordsOn (X : Words16) (g : Lane) : Word × Word × Word × Word := (X[g.1], X[g.2.1], X[g.2.2.1], X[g.2.2.2])

/-- The quarter-round of the four words of a lane. -/
def quarterRoundOn (X : Words16) (g : Lane) : Word × Word × Word × Word :=
  quarterRound X[g.1] X[g.2.1] X[g.2.2.1] X[g.2.2.2]

theorem wordsOn_eq_iff {X Y : Words16} {g : Lane} : wordsOn Y g = wordsOn X g ↔ ∀ m ∈ g.indices, Y[m] = X[m] := by
  simp [wordsOn, Lane.indices]

theorem quarterRoundOn_congr {X Y : Words16} {g : Lane} (h : wordsOn Y g = wordsOn X g) :
    quarterRoundOn Y g = quarterRoundOn X g := by
  simp only [wordsOn, Prod.mk.injEq] at h
  obtain ⟨h1, h2, h3, h4⟩ := h
  rw [quarterRoundOn, h1, h2, h3, h4, quarterRoundOn]

theorem foldl_qrxLane_getElem_of_notMem {gs : List Lane} {m : Fin 16} (X : Words16)
    (hm : ∀ g ∈ gs, m ∉ Lane.indices g) : (gs.foldl qrxLane X)[m] = X[m] := by
  induction gs generalizing X with
  | nil => rfl
  | cons g gs ih =>
    obtain ⟨hg, hgs⟩ := List.forall_mem_cons.1 hm
    exact (ih _ hgs).trans (qrx_getElem_of_notMem X hg)

/-- Lanes without a common index do not see each other's writes. -/
theorem wordsOn_foldl_qrxLane {gs : List Lane} {g : Lane} (X : Words16) (hd : (gs.flatMap Lane.indices).Nodup)
    (hg : g ∈ gs) : wordsOn (gs.foldl qrxLane X) g = quarterRoundOn X g := by
  induction gs generalizing X with
  | nil => cases hg
  | cons first gs ih =>
    rw [List.flatMap_cons, List.nodup_append'] at hd
    obtain ⟨hfirst, hgs, hdisj⟩ := hd
    have apart : ∀ g' ∈ gs, ∀ m ∈ Lane.indices g', m ∉ Lane.indices first := fun g' hg' m hm hfirst =>
      hdisj hfirst (List.mem_flatMap.2 ⟨g', hg', hm⟩)
    rcases List.mem_cons.1 hg with rfl | hg
    · have later : wordsOn (gs.foldl qrxLane (qrxLane X g)) g = wordsOn (qrxLane X g) g :=
        wordsOn_eq_iff.2 fun m hm => foldl_qrxLane_getElem_of_notMem _ fun g' hg' hm' => apart g' hg' m hm' hm
      exact later.trans (qrx_getElem_lane X hfirst)
    · have before : wordsOn (qrxLane X first) g = wordsOn X g :=
        wordsOn_eq_iff.2 fun m hm => qrx_getElem_of_notMem X (apart g hg m hm)
      exact (ih _ hgs hg).trans (quarterRoundOn_congr before)

/-- Each word is in one lane of both orders, where both leave the same quarter-round, or in none. -/
theorem foldl_qrxLane_perm {gs gs' : List Lane} (X : Words16) (hp : gs.Perm gs')
    (hd : (gs'.flatMap Lane.indices).Nodup) : gs.foldl qrxLane X = gs'.foldl qrxLane X := by
  have hd' : (gs.flatMap Lane.indices).Nodup := (hp.flatMap_right _).nodup_iff.2 hd
  refine Vector.ext fun i hi => ?_
  by_cases hin : ∃ g ∈ gs, (⟨i, hi⟩ : Fin 16) ∈ Lane.indices g
  · obtain ⟨g, hg, hm⟩ := hin
    have same : wordsOn (gs.foldl qrxLane X) g = wordsOn (gs'.foldl qrxLane X) g :=
      (wordsOn_foldl_qrxLane X hd' hg).trans (wordsOn_foldl_qrxLane X hd (hp.mem_iff.1 hg)).symm
    exact wordsOn_eq_iff.1 same _ hm
  · have hout : ∀ g ∈ gs, (⟨i, hi⟩ : Fin 16) ∉ Lane.indices g := fun g hg hm => hin ⟨g, hg, hm⟩
    exact (foldl_qrxLane_getElem_of_notMem X hout).trans
      (foldl_qrxLane_getElem_of_notMem X fun g hg => hout g (hp.mem_iff.2 hg)).symm

/-- The lanes of COLUMNROUND. -/
def columnLanes : List Lane := [(0, 4, 8, 12), (1, 5, 9, 13), (2, 6, 10, 14), (3, 7, 11, 15)]

/-- The lanes of DIAGONALROUND. -/
def diagonalLanes : List Lane := [(0, 5, 10, 15), (1, 6, 11, 12), (2, 7, 8, 13), (3, 4, 9, 14)]

theorem columnRound_eq_foldl (X : Words16) : columnRound X = columnLanes.foldl qrxLane X := rfl

theorem diagonalRound_eq_foldl (X : Words16) : diagonalRound X = diagonalLanes.foldl qrxLane X := rfl

/-- What a round over lanes without a common index leaves, in any order of the lanes. -/
theorem round_of_perm {gs gs' : List Lane} (hd : (gs'.flatMap Lane.indices).Nodup) (hp : gs.Perm gs') (X : Words16) :
    gs.foldl qrxLane X = gs'.foldl qrxLane X ∧
      ∀ g ∈ gs, wordsOn (gs'.foldl qrxLane X) g = quarterRoundOn X g :=
  ⟨foldl_qrxLane_perm X hp hd, fun _ hg => wordsOn_foldl_qrxLane X hd (hp.mem_iff.1 hg)⟩

/-- Settles O27: in either round no two lanes share an index. -/
theorem roundLanesAreIndependent : Obligations.RoundLanesAreIndependent := by
  intro X gs
  rw [columnRound_eq_foldl, diagonalRound_eq_foldl]
  exact ⟨fun hp => round_of_perm (by decide) hp X, fun hp => round_of_perm (by decide) hp X⟩

/-! ### The keystream block (R79, R80, R82, R83) -/

theorem doubleRounds_eq_iterate (n : Nat) (X : Words16) :
    doubleRounds n X = (fun Y => diagonalRound (columnRound Y))^[n] X := by
  induction n generalizing X with
  | zero => rfl
  | succ n ih => exact ih (doubleRound X)

theorem bytesLe32_getElem? (w : Word) (j : Fin 4) : (bytesLe32 w)[j.val]? = some (w.extractLsb' (8 * j.val) 8) := by
  match j with
  | 0 | 1 | 2 | 3 => rfl

/-- Byte `j` of word `i` stands behind the four bytes of each word before it. -/
theorem flatMap_bytesLe32_getElem? {ws : List Word} {w : Word} {i : Nat} (hw : ws[i]? = some w) (j : Fin 4) :
    (ws.flatMap bytesLe32)[4 * i + j.val]? = some (w.extractLsb' (8 * j.val) 8) := by
  induction ws generalizing i with
  | nil => cases hw
  | cons v ws ih =>
    rw [List.flatMap_cons]
    cases i with
    | zero =>
      obtain rfl : v = w := by simpa using hw
      rw [Nat.mul_zero, Nat.zero_add, List.getElem?_append_left (by simp), bytesLe32_getElem?]
    | succ i =>
      have index : 4 * (i + 1) + j.val - 4 = 4 * i + j.val := by omega
      rw [List.getElem?_append_right (by rw [bytesLe32_length]; omega), bytesLe32_length, index]
      exact ih hw

theorem serialize_getElem? (Y : Words16) (i : Fin 16) (j : Fin 4) :
    (serialize Y)[4 * i.val + j.val]? = some (Y[i].extractLsb' (8 * j.val) 8) :=
  flatMap_bytesLe32_getElem? (by simp) j

theorem blockOf_getElem? (S : Words16) (i : Fin 16) (j : Fin 4) :
    (blockOf S)[4 * i.val + j.val]? = some (((rounds20 S)[i] + S[i]).extractLsb' (8 * j.val) 8) := by
  rw [blockOf, serialize_getElem?]
  simp [feedForward]

/-- One word set: the two rounds spread it over the array in different ways. -/
theorem columnRound_diagonalRound_not_commute :
    ∃ X : Words16, columnRound (diagonalRound X) ≠ diagonalRound (columnRound X) :=
  ⟨(Vector.replicate 16 0#32).set 0 1#32, by decide⟩

/-- Settles O28: the rounds as an iterate, and the byte of the serialised sum. -/
theorem blockBytesAreFedForwardWords : Obligations.BlockBytesAreFedForwardWords := by
  refine ⟨fun _ => rfl, columnRound_diagonalRound_not_commute, doubleRounds_eq_iterate 10, fun S => ?_⟩
  refine ⟨blockOf_length S, fun i j => ?_⟩
  rw [blockOf_getElem?, rounds20, doubleRounds_eq_iterate]

/-! ### What a command writes depends on `S` and the source bytes (R85, R93, R102) -/

/-- Settles O45: both commands end in `xorNext`, whose bytes and `S` are functions of the old source bytes and `S`. -/
theorem sameStateSameBytes : Obligations.SameStateSameBytes := by
  intro daddr saddr len s s' hready hready' hS hm hm' hd hd' hsrc
  refine ⟨xorNext daddr saddr len s, xorNext daddr saddr len s',
    (exec_encrypt ..).trans (xorCommand_of_duties hready hd),
    (exec_encrypt ..).trans (xorCommand_of_duties hready' hd'), ?_, fun i hi => ?_⟩
  · exact congrArg (advances (blockCount len.toNat)) hS
  · rw [xorNext_read_inside hm hd hi, xorNext_read_inside hm' hd' hi, hsrc i hi, hS]

end Sys2Proof.Machine
end

section
/-! PROOF. Counter advancement (42_counter_advance.md). The carry of ADVANCE makes `S[13] ‖ S[12]` one 64-bit number that
goes up by 1, so `q` ADVANCEs add `q` to it (R88). `S[12]` and `S[13]` are the two halves of that number: what each is
after `q` ADVANCEs, and that 2^64 of them give `S` back, is arithmetic on it, in either layout. -/

namespace Sys2Proof.Machine

/-! ### One ADVANCE (R87) -/

theorem advance_getElem_12 (S : Words16) : (advance S)[12] = S[12] + 1#32 := by
  simp only [advance]
  split <;> simp

theorem advance_getElem_13_of_wrap {S : Words16} (h : S[12] = 0xffffffff#32) : (advance S)[13] = S[13] + 1#32 := by
  simp [advance, h]

theorem advance_getElem_13_of_no_wrap {S : Words16} (h : S[12] ≠ 0xffffffff#32) : (advance S)[13] = S[13] := by
  have noWrap : S[12] + 1#32 ≠ 0#32 := by bv_omega
  simp [advance, noWrap]

/-- Settles O29: `S[12]` always, `S[13]` by the carry, the other words by `advance_getElem_of_ne`. -/
theorem advanceWritesCounterWords : Obligations.AdvanceWritesCounterWords := by
  intro S
  refine ⟨advance_getElem_12 S, fun hwrap => ⟨?_, advance_getElem_13_of_wrap hwrap⟩, advance_getElem_13_of_no_wrap,
    fun m h12 h13 => advance_getElem_of_ne S m.isLt (fun h => h12 (Fin.ext h)) fun h => h13 (Fin.ext h)⟩
  rw [advance_getElem_12, hwrap]
  rfl

/-! ### The counter of 64 bits (R88) -/

theorem counter64_toNat (S : Words16) : (counter64 S).toNat = S[13].toNat * 2 ^ 32 + S[12].toNat := by
  rw [counter64, BitVec.toNat_append, ← Nat.shiftLeft_add_eq_or_of_lt S[12].isLt, Nat.shiftLeft_eq]

theorem counter64_low (S : Words16) : (counter64 S).extractLsb' 0 32 = S[12] := BitVec.extractLsb'_append_eq_right

theorem counter64_high (S : Words16) : (counter64 S).extractLsb' 32 32 = S[13] := BitVec.extractLsb'_append_eq_left

/-- The carry into `S[13]` is the carry of the 64-bit sum. -/
theorem counter64_advance (S : Words16) : counter64 (advance S) = counter64 S + 1#64 := by
  apply BitVec.eq_of_toNat_eq
  rw [BitVec.toNat_add, counter64_toNat, counter64_toNat, advance_getElem_12]
  by_cases hwrap : S[12] = 0xffffffff#32
  · rw [advance_getElem_13_of_wrap hwrap, hwrap]
    simp only [BitVec.toNat_add, BitVec.toNat_ofNat]
    omega
  · rw [advance_getElem_13_of_no_wrap hwrap]
    have noWrap : S[12].toNat ≠ 0xffffffff := fun h => hwrap (BitVec.eq_of_toNat_eq h)
    simp only [BitVec.toNat_add, BitVec.toNat_ofNat]
    omega

theorem counter64_advances (q : Nat) (S : Words16) : counter64 (advances q S) = counter64 S + BitVec.ofNat 64 q := by
  induction q with
  | zero => simp
  | succ q ih => rw [advances_succ_last, counter64_advance, ih, BitVec.add_assoc, ← BitVec.ofNat_add]

theorem counter64_advances_full_wrap (S : Words16) : counter64 (advances (2 ^ 64) S) = counter64 S :=
  (counter64_advances _ S).trans (BitVec.add_zero _)

theorem counter64_refWords (key nonce : List Byte) : counter64 (refWords key nonce) = 0#64 := by
  simp [counter64, refWords, instanceWords]

theorem counter64_initNext (kaddr naddr ctr : Word) (s : State) :
    counter64 (initNext 8#32 kaddr naddr ctr s).engine.S = 0#64 := by
  rw [initNext_S_ref, counter64_refWords]

/-- An INIT of valid sizes that completes has not failed on a size check. -/
theorem exec_init_next {nlen kaddr naddr ctr : Word} {s t : State} (hn : nlen = 8#32 ∨ nlen = 12#32)
    (h : exec (.init 32#32 nlen kaddr naddr ctr) s = .next t) : t = initNext nlen kaddr naddr ctr s := by
  rcases execInit_next ((exec_init ..).symm.trans h) with ⟨hk, -⟩ | ⟨-, h8, h12, -⟩ | ⟨-, -, -, ht⟩
  · exact absurd rfl hk
  · exact absurd hn (not_or.2 ⟨h8, h12⟩)
  · exact ht

/-- Settles O30: each ADVANCE adds 1, and INIT with an 8-byte nonce builds the counter words as 0. -/
theorem referenceCounterCounts : Obligations.ReferenceCounterCounts := by
  refine ⟨counter64_advance, counter64_advances, counter64_advances_full_wrap, fun kaddr naddr ctr s t h => ?_⟩
  rw [exec_init_next (.inl rfl) h, counter64_initNext]

/-! ### The full wrap (R126) -/

/-- Beside the counter ADVANCE changes nothing, so the counter says whether `S` is back. -/
theorem advances_eq_self_of_counter64 {q : Nat} {S : Words16} (h : counter64 (advances q S) = counter64 S) :
    advances q S = S := by
  refine Vector.ext fun i hi => ?_
  by_cases h12 : i = 12
  · subst h12
    rw [← counter64_low, h, counter64_low]
  · by_cases h13 : i = 13
    · subst h13
      rw [← counter64_high, h, counter64_high]
    · exact advances_getElem_of_ne q S hi h12 h13

theorem advances_full_wrap (S : Words16) : advances (2 ^ 64) S = S :=
  advances_eq_self_of_counter64 (counter64_advances_full_wrap S)

/-- Settles O31: after 2^64 blocks of 64 bytes the state is back, and the keystream goes on from it. -/
theorem keystreamRepeatsAfterFullWrap : Obligations.KeystreamRepeatsAfterFullWrap := by
  refine fun S => ⟨advances_full_wrap S, fun i => ?_⟩
  have blocks : 2 ^ 70 + i = 64 * 2 ^ 64 + i := by omega
  rw [blocks, ← keystreamByte_advances, advances_full_wrap]

/-! ### The two counter words on their own (R87, R89) -/

theorem advances_getElem_12 (q : Nat) (S : Words16) : (advances q S)[12] = S[12] + BitVec.ofNat 32 q := by
  apply BitVec.eq_of_toNat_eq
  rw [← counter64_low, counter64_advances, BitVec.extractLsb'_toNat, BitVec.toNat_add, counter64_toNat,
    BitVec.toNat_add, BitVec.toNat_ofNat, BitVec.toNat_ofNat, Nat.shiftRight_zero]
  omega

/-- Each time the count passes 2^32, `S[12]` wraps and `S[13]` takes the carry. -/
theorem advances_getElem_13 (q : Nat) (S : Words16) :
    (advances q S)[13] = S[13] + BitVec.ofNat 32 ((S[12].toNat + q) / 2 ^ 32) := by
  apply BitVec.eq_of_toNat_eq
  rw [← counter64_high, counter64_advances, BitVec.extractLsb'_toNat, BitVec.toNat_add, counter64_toNat,
    BitVec.toNat_add, BitVec.toNat_ofNat, BitVec.toNat_ofNat, Nat.shiftRight_eq_div_pow]
  omega

/-- Settles O37: both commands end in `xorNext`, whose `S` is advanced once per block and whose flags are kept. -/
theorem ietfCarryChangesNonceWord : Obligations.IetfCarryChangesNonceWord := by
  intro daddr saddr len s hready hlayout hduties
  obtain ⟨ready, layout, words⟩ := xorNext_advancedBy daddr saddr len s
  refine ⟨_, _, (exec_encrypt ..).trans (xorCommand_of_duties hready hduties),
    (exec_decrypt ..).trans (xorCommand_of_duties hready hduties), rfl, ?_⟩
  rw [words]
  exact ⟨advances_getElem_12 _ _, advances_getElem_13 _ _,
    advances_getElem_of_ne _ _ (by decide) (by decide) (by decide),
    advances_getElem_of_ne _ _ (by decide) (by decide) (by decide), ready.trans hready, layout.trans hlayout⟩

end Sys2Proof.Machine
end

section
/-! PROOF. The streaming XOR (43_stream_xor.md). An ENCRYPT or DECRYPT that meets its duties ends in `xorNext`, so the
statements about completed commands are facts about `xorNext`. When each outcome occurs is said without naming the
command, which makes DECRYPT do what ENCRYPT does. A message cut after whole blocks is the block loop cut after as many
turns (`streamMem_add`). -/

namespace Sys2Proof.Machine

/-! ### When each outcome occurs (R98, R112) -/

theorem xorCommand_next_iff {command : Instr} {daddr saddr len : Word} {s t : State} :
    xorCommand command daddr saddr len s = .next t ↔
      (s.engine.ready = false ∧ t = respond .notConstructed s) ∨
      (s.engine.ready = true ∧ XorDuties s daddr saddr len ∧ t = xorNext daddr saddr len s) := by
  refine ⟨xorCommand_next, ?_⟩
  rintro (⟨hready, rfl⟩ | ⟨hready, hd, rfl⟩)
  · exact xorCommand_notConstructed hready
  · exact xorCommand_of_duties hready hd

theorem xorCommand_bufferFault_iff {command : Instr} {daddr saddr len : Word} {s : State} :
    xorCommand command daddr saddr len s = .fault (.bufferFault command) ↔
      s.engine.ready = true ∧ ¬ XorDuties s daddr saddr len ∧
        (insideSpace saddr len → insideSpace daddr len → equalOrDisjoint daddr saddr len) := by
  refine ⟨fun h => ?_, fun ⟨hready, hd, hover⟩ => xorCommand_of_not_duties hready hover hd⟩
  rcases xorCommand_cases command daddr saddr len s with
    ⟨-, he⟩ | ⟨-, -, he⟩ | ⟨hready, hout, -⟩ | ⟨-, -, -, -, he⟩ | ⟨hready, -, -, hover, hadm, -⟩
  · simp [he] at h
  · simp [he] at h
  · exact ⟨hready, fun hd => hout ⟨hd.source, hd.destination⟩, fun hs hd => absurd ⟨hs, hd⟩ hout⟩
  · simp [he] at h
  · exact ⟨hready, fun hd => hadm ⟨hd.readable, hd.writable⟩, fun _ _ => hover⟩

theorem xorCommand_overlapUnmodelled_iff {command : Instr} {daddr saddr len : Word} {s : State} :
    xorCommand command daddr saddr len s = .fault (.overlapUnmodelled command) ↔
      s.engine.ready = true ∧ insideSpace saddr len ∧ insideSpace daddr len ∧ ¬ equalOrDisjoint daddr saddr len := by
  rcases xorCommand_cases command daddr saddr len s with
    ⟨hready, he⟩ | ⟨-, hd, he⟩ | ⟨-, hout, he⟩ | ⟨hready, hs, hd, hover, he⟩ | ⟨-, -, -, hover, -, he⟩
  · simp [he, hready]
  · simp [he, hd.overlap]
  · simp [he, ← and_assoc, hout]
  · simp [he, hready, hs, hd, hover]
  · simp [he, hover]

/-- Settles O41: the condition of each outcome does not name the command. -/
theorem decryptIsEncrypt : Obligations.DecryptIsEncrypt := by
  intro daddr saddr len s
  simp only [exec_encrypt, exec_decrypt]
  exact ⟨decode_decrypt rfl, fun _ => xorCommand_next_iff.trans xorCommand_next_iff.symm,
    xorCommand_bufferFault_iff.trans xorCommand_bufferFault_iff.symm,
    xorCommand_overlapUnmodelled_iff.trans xorCommand_overlapUnmodelled_iff.symm⟩

/-! ### Completion with the closed form (R94, R95) -/

/-- Either command, on a constructed engine and with its duties met, ends in `xorNext`. -/
theorem exec_xor_of_duties {i : Instr} {daddr saddr len : Word} {s : State}
    (hi : i = .encrypt daddr saddr len ∨ i = .decrypt daddr saddr len) (hready : s.engine.ready = true)
    (hd : XorDuties s daddr saddr len) : exec i s = .next (xorNext daddr saddr len s) := by
  rcases hi with rfl | rfl
  · exact (exec_encrypt ..).trans (xorCommand_of_duties hready hd)
  · exact (exec_decrypt ..).trans (xorCommand_of_duties hready hd)

theorem xorNext_result {daddr saddr len : Word} {s : State} (hready : s.engine.ready = true) (hm : s.mem.wf)
    (hd : XorDuties s daddr saddr len) : XorResult daddr saddr len s (xorNext daddr saddr len s) := by
  obtain ⟨ready, layout, words⟩ := xorNext_advancedBy daddr saddr len s
  obtain ⟨before, after, admitted, inputs⟩ := xorNext_keeps daddr saddr len s
  exact ⟨fun _ => xorNext_read_inside hm hd, fun _ => xorNext_read_outside, words, ready.trans hready, layout,
    xorNext_results .., rfl, before, after, admitted, inputs, rfl⟩

/-- Settles O35: both commands end in `xorNext`. -/
theorem streamXorClosedForm : Obligations.StreamXorClosedForm := by
  intro daddr saddr len s hready hm hd
  exact ⟨⟨_, exec_xor_of_duties (.inl rfl) hready hd, xorNext_result hready hm hd⟩,
    ⟨_, exec_xor_of_duties (.inr rfl) hready hd, xorNext_result hready hm hd⟩⟩

/-! ### An empty range (R96) -/

/-- Over no byte there is no duty. -/
theorem xorDuties_empty (daddr saddr : Word) (s : State) : XorDuties s daddr saddr 0#32 :=
  ⟨.inl rfl, .inl rfl, .inl rfl, fun i hi => absurd hi i.not_lt_zero, fun i hi => absurd hi i.not_lt_zero⟩

theorem xorNext_empty (daddr saddr : Word) (s : State) : xorNext daddr saddr 0#32 s = respond .ok s := rfl

/-- Settles O34: the duties are met and the block loop makes no turn. -/
theorem zeroLengthChangesNothing : Obligations.ZeroLengthChangesNothing := by
  intro daddr saddr s hready
  have completes : ∀ i, i = .encrypt daddr saddr 0#32 ∨ i = .decrypt daddr saddr 0#32 →
      exec i s = .next (respond .ok s) := fun i hi => by
    rw [exec_xor_of_duties hi hready (xorDuties_empty ..), xorNext_empty]
  exact ⟨completes _ (.inl rfl), completes _ (.inr rfl)⟩

/-! ### The command after a command (R97, R99) -/

/-- Settles O42: the second command starts from `S` advanced once per block of the first, a partial block too. -/
theorem nextCommandStartsNextBlock : Obligations.NextCommandStartsNextBlock := by
  intro daddr saddr len daddr2 saddr2 len2 first second s hfirst hsecond hready hm hd hd2
  obtain ⟨ready, -, words⟩ := xorNext_advancedBy daddr saddr len s
  have hd2 : XorDuties (xorNext daddr saddr len s) daddr2 saddr2 len2 :=
    (xorDuties_congr (xorNext_keeps daddr saddr len s).admitted).2 hd2
  refine ⟨_, _, exec_xor_of_duties hfirst hready hd, exec_xor_of_duties hsecond (ready.trans hready) hd2, fun i hi => ?_⟩
  rw [xorNext_read_inside (xorNext_wf hm hd.destination) hd2 hi, words, keystreamByte_advances, blockCount]

/-! ### A message cut after whole blocks (R130) -/

/-- The block loop cut after `k` whole blocks. -/
theorem streamMem_add (k b d a n : Nat) (S : Words16) (m : Memory) :
    streamMem (k + b) d a (64 * k + n) S m =
      streamMem b (d + 64 * k) (a + 64 * k) n (advances k S) (streamMem k d a (64 * k) S m) := by
  induction k generalizing d a S m with
  | zero => simp [streamMem]
  | succ k ih =>
    have turns : k + 1 + b = k + b + 1 := by omega
    have whole : min (64 * (k + 1) + n) 64 = min (64 * (k + 1)) 64 := by omega
    have rest : 64 * (k + 1) + n - min (64 * (k + 1)) 64 = 64 * k + n := by omega
    have restFirst : 64 * (k + 1) - min (64 * (k + 1)) 64 = 64 * k := by omega
    have address : ∀ x, x + 64 * (k + 1) = x + 64 + 64 * k := fun x => by omega
    rw [turns, streamMem, whole, rest, ih, streamMem, restFirst, advances_succ, address, address]

theorem rangeAdmitted_of_add {s : State} {a m n : Nat} {kind : Access} (h : rangeAdmitted s a (m + n) kind) :
    rangeAdmitted s a m kind ∧ rangeAdmitted s (a + m) n kind :=
  ⟨fun i hi => h i (by omega), fun i hi => Nat.add_assoc .. ▸ h (m + i) (by omega)⟩

section
variable {daddr saddr whole first second : Word} {s : State} (hwhole : whole.toNat = first.toNat + second.toNat)
  (hd : XorDuties s daddr saddr whole)
include hwhole hd

theorem xorDuties_firstPart : XorDuties s daddr saddr first := by
  obtain ⟨hsource, hdestination, hover, hread, hwrite⟩ := hd
  rw [hwhole] at hread hwrite
  simp only [insideSpace, equalOrDisjoint, hwhole, BitVec.toNat_eq (x := saddr)] at hsource hdestination hover
  refine ⟨?_, ?_, ?_, (rangeAdmitted_of_add hread).1, (rangeAdmitted_of_add hwrite).1⟩
  · simp only [insideSpace]; omega
  · simp only [insideSpace]; omega
  · simp only [equalOrDisjoint, BitVec.toNat_eq (x := saddr)]; omega

/-- Where the second part is not empty its addresses do not wrap. -/
theorem secondPart_addresses (hpos : 0 < second.toNat) :
    (daddr + first).toNat = daddr.toNat + first.toNat ∧ (saddr + first).toNat = saddr.toNat + first.toNat := by
  have hsource := (insideSpace_iff_of_pos (by omega)).1 hd.source
  have hdestination := (insideSpace_iff_of_pos (by omega)).1 hd.destination
  exact ⟨BitVec.toNat_add_of_lt (by omega), BitVec.toNat_add_of_lt (by omega)⟩

theorem xorDuties_secondPart : XorDuties s (daddr + first) (saddr + first) second := by
  rcases Nat.eq_zero_or_pos second.toNat with h0 | hpos
  · rw [BitVec.eq_of_toNat_eq (y := 0#32) h0]
    exact xorDuties_empty ..
  · obtain ⟨hda, hsa⟩ := secondPart_addresses hwhole hd hpos
    obtain ⟨hsource, hdestination, hover, hread, hwrite⟩ := hd
    rw [hwhole] at hread hwrite
    simp only [insideSpace, equalOrDisjoint, hwhole, BitVec.toNat_eq (x := saddr)] at hsource hdestination hover
    refine ⟨?_, ?_, ?_, hsa ▸ (rangeAdmitted_of_add hread).2, hda ▸ (rangeAdmitted_of_add hwrite).2⟩
    · simp only [insideSpace, hsa]; omega
    · simp only [insideSpace, hda]; omega
    · simp only [equalOrDisjoint, BitVec.toNat_eq (x := saddr + first), hsa, hda]; omega

/-- The second part's command continues the block loop where the first part's left it. -/
theorem xorNext_secondPart (hblocks : first.toNat % 64 = 0) :
    (xorNext (daddr + first) (saddr + first) second (xorNext daddr saddr first s)).mem =
        (xorNext daddr saddr whole s).mem ∧
      (xorNext (daddr + first) (saddr + first) second (xorNext daddr saddr first s)).engine.S =
        (xorNext daddr saddr whole s).engine.S := by
  obtain ⟨k, hk⟩ := Nat.dvd_of_mod_eq_zero hblocks
  have firstBlocks : blockCount first.toNat = k := by simp only [blockCount]; omega
  have wholeBlocks : blockCount whole.toNat = k + blockCount second.toNat := by simp only [blockCount]; omega
  simp only [xorNext, respond_mem, respond_engine_S, firstBlocks, wholeBlocks, advances_add, and_true]
  rcases Nat.eq_zero_or_pos second.toNat with h0 | hpos
  · rw [hwhole, h0, blockCount_eq_zero.2 rfl, streamMem, Nat.add_zero, Nat.add_zero]
  · obtain ⟨hda, hsa⟩ := secondPart_addresses hwhole hd hpos
    rw [hda, hsa, hwhole, hk, streamMem_add]

end

/-- Settles O43: both parts meet the duties of the whole, and their two block loops are that of the whole. -/
theorem splitAtBlockBoundary : Obligations.SplitAtBlockBoundary := by
  intro daddr saddr first second s hready _ hblocks hsum hd
  have hwhole := BitVec.toNat_add_of_lt hsum
  have keeps := xorNext_keeps daddr saddr first s
  have ready := (xorNext_advancedBy daddr saddr first s).ready.trans hready
  exact ⟨_, _, _, exec_xor_of_duties (.inl rfl) hready hd,
    exec_xor_of_duties (.inl rfl) hready (xorDuties_firstPart hwhole hd),
    exec_xor_of_duties (.inl rfl) ready ((xorDuties_congr keeps.admitted).2 (xorDuties_secondPart hwhole hd)),
    xorNext_secondPart hwhole hd hblocks⟩

end Sys2Proof.Machine
end

section
/-! PROOF. The exceptions (60_exceptions.md). `exec_fault` says once which fault a command can end in. A step ends in
`loseFaulted`, so every frame statement on memory is about a byte that still has its value: a fault takes away the
destination range of its own command and no other byte (`holdsValue_enterFaulted`), and since no step clears a fault, no
byte gets its value back (`holdsValue_of_step`). -/

namespace Sys2Proof.Machine

/-! ### How a command can end (R103, R107, R110) -/

/-- Settles O33: `READY` is the first check of both commands. -/
theorem notConstructedChangesNothing : Obligations.NotConstructedChangesNothing := fun _ _ _ _ hready =>
  ⟨(exec_encrypt ..).trans (xorCommand_notConstructed hready), (exec_decrypt ..).trans (xorCommand_notConstructed hready)⟩

/-- Settles O39: the range checks pass, and a shared address at different bases fails the overlap check. -/
theorem partialOverlapFaults : Obligations.PartialOverlapFaults := by
  rintro daddr saddr len s hready hlen hs hd hne ⟨a, hsa, has, hda, had⟩
  have hover : ¬ equalOrDisjoint daddr saddr len := by
    rintro (hempty | hequal | hbelow | habove)
    · omega
    · exact hne hequal
    · omega
    · omega
  have hfault : ∀ command, xorCommand command daddr saddr len s = .fault (.overlapUnmodelled command) := fun _ =>
    xorCommand_overlapUnmodelled_iff.2 ⟨hready, .inr hs, .inr hd, hover⟩
  exact ⟨(exec_encrypt ..).trans (hfault _), (exec_decrypt ..).trans (hfault _)⟩

theorem exec_init_ne_overlapUnmodelled (klen nlen kaddr naddr ctr : Word) (s : State) (command : Instr) :
    exec (.init klen nlen kaddr naddr ctr) s ≠ .fault (.overlapUnmodelled command) := by
  rw [exec_init]
  rcases execInit_cases klen nlen kaddr naddr ctr s with ⟨-, he⟩ | ⟨-, -, -, he⟩ | ⟨-, -, -, he⟩ | ⟨-, -, -, he⟩ <;>
    simp [he]

/-- The model faults a command can end in (R109, R110). -/
theorem exec_fault {i : Instr} {s : State} {fault : Fault} (h : exec i s = .fault fault) :
    fault = .bufferFault i ∨
      (fault = .overlapUnmodelled i ∧ ∀ klen nlen kaddr naddr ctr : Word, i ≠ .init klen nlen kaddr naddr ctr) := by
  have hcommand : faultCommand fault = i := by
    rcases exec_cases i s with ⟨t, ht⟩ | ⟨fault', hf, hi⟩
    · cases ht.symm.trans h
    · cases hf.symm.trans h
      exact hi
  cases fault with
  | bufferFault command => exact .inl (congrArg Fault.bufferFault hcommand)
  | overlapUnmodelled command =>
    refine .inr ⟨congrArg Fault.overlapUnmodelled hcommand, ?_⟩
    rintro klen nlen kaddr naddr ctr rfl
    exact exec_init_ne_overlapUnmodelled klen nlen kaddr naddr ctr s command h

/-- Settles O47: `exec_keeps` gives the result word of a next state, `exec_fault` the fault of the other outcome. -/
theorem commandsCompleteOrFault : Obligations.CommandsCompleteOrFault := by
  intro i s
  rcases exec_cases i s with ⟨t, ht⟩ | ⟨fault, hf, -⟩
  · obtain ⟨-, -, hresult⟩ := exec_keeps ht
    exact .inl ⟨t, ht, hresult⟩
  · rcases exec_fault hf with rfl | ⟨rfl, hinit⟩
    · exact .inr (.inl hf)
    · exact .inr (.inr ⟨hf, hinit⟩)

/-! ### Which bytes have a value (R111) -/

theorem holdsValue_of_engines {s t : State} {a : Nat} (he : t.engines = s.engines) (h : holdsValue s a) :
    holdsValue t a := by
  unfold holdsValue
  rwa [he]

theorem holdsValue_focus {k a : Nat} {s t : State} (hf : s.pop.focus k = some t) (h : holdsValue s a) :
    holdsValue t a := by
  obtain ⟨-, hengines, -⟩ := focus_eq_some hf
  exact holdsValue_of_engines hengines h

/-- A fault takes their value from the bytes of its own command's destination range only. -/
theorem holdsValue_enterFaulted {s : State} {fault : Fault} {a : Nat} (h : holdsValue s a)
    (hout : a < (destinationRange (faultCommand fault)).1 ∨
      (destinationRange (faultCommand fault)).1 + (destinationRange (faultCommand fault)).2 ≤ a) :
    holdsValue (enterFaulted fault s) a := by
  refine forall_engines_of_around (s := s) (t := enterFaulted fault s) rfl rfl h fun fault' hf => ?_
  cases hf
  exact hout

theorem holdsValue_resetEngine {s : State} {a : Nat} (h : holdsValue s a) : holdsValue (resetEngine s) a :=
  forall_engines_of_around (s := s) (t := resetEngine s) rfl rfl h fun fault hf =>
    h s.engine (engine_mem_engines s) fault ((resetEngine_engine_faulted s).symm.trans hf)

/-- The frame of a step on memory, where what is done to engine `k` writes none. -/
theorem loseFaulted_read_of_focus {k a : Nat} {s u t : State} (hf : s.pop.focus k = some u) (hm : t.mem = u.mem)
    (h : holdsValue t a) : (loseFaulted t).mem.read a = s.mem.read a := by
  obtain ⟨-, -, -, hmem, -⟩ := focus_eq_some hf
  rw [loseFaulted_read_of_holdsValue h, hm, hmem, State.pop_mem]

/-- Settles O58: the parts are `loseFaulted_of_running`, the frame lemmas and `loseFaulted_read_of_holdsValue`. -/
theorem onlyLostBytesAreRedrawn : Obligations.OnlyLostBytesAreRedrawn := fun s =>
  ⟨loseFaulted_of_running, ⟨loseFaulted_before s, loseFaulted_engine s, loseFaulted_after s, loseFaulted_admitted s,
    loseFaulted_inputs s⟩, fun _ => loseFaulted_read_of_holdsValue⟩

/-! ### A host write between commands (R118) -/

theorem step_write {s : State} {addr : Word} {v : Byte} {rest : List HostAction} (hin : s.inputs = .write addr v :: rest) :
    step s = .next (loseFaulted (hostWrite addr v s.pop)) := by
  simp only [step, hin, hostMove, settle]

/-- Settles O14: the write changes no engine, so the bytes that had a value keep one and read as the write left them. -/
theorem hostWriteChangesOneByte : Obligations.HostWriteChangesOneByte := by
  intro s addr v rest hin hm
  have hread : ∀ {a}, holdsValue s a →
      (loseFaulted (hostWrite addr v s.pop)).mem.read a = (s.mem.write addr.toNat v).read a := fun h =>
    loseFaulted_read_of_holdsValue (s := hostWrite addr v s.pop) (holdsValue_of_engines rfl h)
  refine ⟨_, step_write hin, fun h => (hread h).trans (Memory.read_write_same hm _ v),
    fun a hne h => (hread h).trans (Memory.read_write_of_ne v hne), loseFaulted_before _, loseFaulted_engine _,
    loseFaulted_after _, loseFaulted_admitted _, ?_, fun hrun => ?_⟩
  · rw [loseFaulted_inputs, hostWrite_inputs, State.pop_inputs, hin, List.tail_cons]
  · have hnone : loseFaulted (hostWrite addr v s.pop) = hostWrite addr v s.pop := loseFaulted_of_running hrun
    rw [hnone, hostWrite_draws, State.pop_draws]

/-! ### A fault ends the run of its engine (R111) -/

/-- Settles O54: the step ends in `loseFaulted` after `enterFaulted` on the engine `focus` turns to. -/
theorem modelFaultEndsOneEngine : Obligations.ModelFaultEndsOneEngine := by
  intro s t k w rest i f hin hfocus hrun hw hfault
  have hkind := exec_fault hfault
  refine ⟨hkind.imp_right And.left, loseFaulted (enterFaulted f t), ?_, ?_⟩
  · rw [step_issue hin hfocus, runWords_of_decode hrun hw, runCommand, hfault, settle]
  obtain ⟨-, -, hindex, -, hadm, hinputs, -⟩ := focus_eq_some hfocus
  obtain ⟨hbefore, hafter⟩ := focus_around hfocus
  have hcommand : faultCommand f = i := by rcases hkind with rfl | ⟨rfl, -⟩ <;> rfl
  have hread : ∀ a, a < (destinationRange i).1 ∨ (destinationRange i).1 + (destinationRange i).2 ≤ a → holdsValue s a →
      (loseFaulted (enterFaulted f t)).mem.read a = s.mem.read a := fun _ hout h =>
    loseFaulted_read_of_focus hfocus rfl (holdsValue_enterFaulted (holdsValue_focus hfocus h) (hcommand ▸ hout))
  simp only [loseFaulted_engine, loseFaulted_index, loseFaulted_before, loseFaulted_after, loseFaulted_admitted,
    loseFaulted_inputs]
  have hrest : (enterFaulted f t).inputs = rest := by
    rw [enterFaulted_inputs, hinputs, State.pop_inputs, hin, List.tail_cons]
  refine ⟨rfl, rfl, hindex, hbefore, hafter, hadm, hrest, ?_⟩
  cases i with
  | init klen nlen kaddr naddr ctr => exact fun a => hread a (.inr a.zero_le)
  | encrypt daddr saddr len => exact hread
  | decrypt daddr saddr len => exact hread

/-! ### A faulted engine (R111, R120) -/

theorem runWords_of_faulted {w : Words} {s : State} {fault : Fault} (hf : s.engine.faulted = some fault) :
    runWords w s = .next s := by
  simp only [runWords, hf]

theorem step_reset {s t : State} {k : Nat} {rest : List HostAction} (hin : s.inputs = .reset k :: rest)
    (hf : s.pop.focus k = some t) : step s = .next (loseFaulted (resetEngine t)) := by
  simp only [step, hin, hostMove, hf, settle]

/-- Settles O55: words do nothing on the engine `focus` turns to, and a reset there keeps the fault record. -/
theorem faultedEngineAcceptsNothing : Obligations.FaultedEngineAcceptsNothing := by
  intro s k e f rest he hfaulted
  obtain ⟨hk, -⟩ := List.getElem?_eq_some_iff.1 he
  obtain ⟨u, hf⟩ := focus_of_lt (s := s.pop) hk
  obtain ⟨hengine, hengines, hindex, -, hadm, hinputs, -⟩ := focus_eq_some hf
  obtain ⟨hbefore, hafter⟩ := focus_around hf
  cases Option.some.inj (hengine.symm.trans he)
  refine ⟨fun w hin => ⟨loseFaulted u, ?_, ?_,
      fun _ h => loseFaulted_read_of_focus hf rfl (holdsValue_focus hf h), ?_, ?_⟩,
    fun hin => ⟨loseFaulted (resetEngine u), step_reset hin hf, ?_⟩⟩
  · rw [step_issue hin hf, runWords_of_faulted hfaulted, settle]
  · rw [loseFaulted_engines, hengines, engines_pop]
  · rw [loseFaulted_admitted, hadm, State.pop_admitted]
  · rw [loseFaulted_inputs, hinputs, State.pop_inputs, hin, List.tail_cons]
  · simp only [loseFaulted_engine, loseFaulted_index, loseFaulted_before, loseFaulted_after, loseFaulted_admitted,
      loseFaulted_inputs]
    refine ⟨(resetEngine_engine_faulted u).trans hfaulted, resetEngine_engine_results u, hindex, hbefore, hafter,
      fun _ h => loseFaulted_read_of_focus hf rfl (holdsValue_resetEngine (holdsValue_focus hf h)), hadm, ?_⟩
    rw [resetEngine_inputs, hinputs, State.pop_inputs, hin, List.tail_cons]

/-- Words given to a faulted engine leave it as it is. -/
theorem commandRuns_of_faulted {w : Words} {s t : State} {fault : Fault} (h : CommandRuns w s t)
    (hf : s.engine.faulted = some fault) : t = s := by
  cases h with
  | stopped _ _ ht => exact ht
  | illegal _ hrun _ _ => cases hf.symm.trans hrun
  | completes _ hrun _ _ => cases hf.symm.trans hrun
  | faults _ _ hrun _ _ _ _ => cases hf.symm.trans hrun

/-- A step that resets engine `k` leaves the reset engine at its number. -/
theorem step_reset_next {s t : State} {k : Nat} {rest : List HostAction} (hin : s.inputs = .reset k :: rest)
    (h : step s = .next t) :
    ∃ u, s.engines[k]? = some u.engine ∧ t.engines[k]? = some (resetEngine u).engine := by
  obtain ⟨v, hv, rfl⟩ := step_next h
  cases hv with
  | reset k' rest' u hi hf ht =>
    cases hin.symm.trans hi
    obtain ⟨hengine, -⟩ := focus_eq_some hf
    subst ht
    exact ⟨u, hengine, by rw [loseFaulted_engines]; exact focus_engine_after hf (resetEngine_keeps u)⟩
  | idle hi _ => simp [hin] at hi
  | issue _ _ _ _ hi _ _ => simp [hin] at hi
  | write _ _ _ hi _ => simp [hin] at hi

/-- Only a reset of it changes a faulted engine: given words it stops, and an engine that the action does not name is
kept. -/
theorem step_keeps_faulted_engine {s t : State} {j : Nat} {e : Engine} {fault : Fault} (h : step s = .next t)
    (he : s.engines[j]? = some e) (hf : e.faulted = some fault) (hreset : s.inputs.head? ≠ some (.reset j)) :
    t.engines[j]? = s.engines[j]? := by
  cases hin : s.inputs with
  | nil => rw [step_idle_engines hin h]
  | cons a rest =>
    by_cases hj : targetEngine a = some j
    · cases a with
      | issue k w =>
        cases hj
        obtain ⟨u, v, hu, hv, hruns⟩ := step_issue_next hin h
        cases he.symm.trans hu
        rw [hv, hu, commandRuns_of_faulted hruns hf]
      | write addr v => cases hj
      | reset k =>
        cases hj
        exact absurd (by rw [hin]; rfl) hreset
    · obtain ⟨-, -, -, hothers⟩ := stepTouchesOneEngine s t a rest hin h
      exact hothers j hj

/-- Settles O56: a reset keeps the fault record and empties the result words, every other step keeps the engine. -/
theorem faultIsNeverCleared : Obligations.FaultIsNeverCleared := by
  intro s t j e f h he hf
  by_cases hreset : s.inputs.head? = some (.reset j)
  · obtain ⟨rest, hin⟩ := List.head?_eq_some_iff.1 hreset
    obtain ⟨u, hu, hv⟩ := step_reset_next hin h
    cases he.symm.trans hu
    exact ⟨_, hv, (resetEngine_engine_faulted u).trans hf, absurd hreset, fun _ => resetEngine_engine_results u⟩
  · exact ⟨e, (step_keeps_faulted_engine h he hf hreset).trans he, hf, fun _ => rfl, fun hr => absurd hr hreset⟩

/-! ### Lost bytes stay lost (R111, D27) -/

/-- A byte that has a value after a step had one before it: every fault of before is still recorded. -/
theorem holdsValue_of_step {s t : State} {a : Nat} (h : step s = .next t) (ht : holdsValue t a) : holdsValue s a := by
  intro e he fault hf
  obtain ⟨j, hj⟩ := List.getElem?_of_mem he
  obtain ⟨e', he', hf', -⟩ := faultIsNeverCleared s t j e fault h hj hf
  exact ht e' (List.mem_of_getElem? he') fault hf'

/-- Words given to an engine keep memory canonical and take back no free value. -/
theorem commandRuns_wf_draws_le {w : Words} {s t : State} (h : CommandRuns w s t) (hm : s.mem.wf) :
    t.mem.wf ∧ s.draws ≤ t.draws := by
  cases h with
  | stopped fault hf ht => rw [ht]; exact ⟨hm, le_rfl⟩
  | illegal reason hf hw ht => rw [ht]; exact ⟨hm, le_rfl⟩
  | completes i hf hw ht => exact ⟨exec_keeps_wf ht hm, exec_draws_le ht⟩
  | faults i fault hf hw he hi ht => rw [ht]; exact ⟨hm, Nat.le_succ s.draws⟩

/-- What the host's action does, before lost bytes are drawn afresh, keeps memory canonical and takes back no free
value. -/
theorem stepRuns_wf_draws_le {s t : State} (h : StepRuns s t) (hm : s.mem.wf) : t.mem.wf ∧ s.draws ≤ t.draws := by
  cases h with
  | idle hi ht => rw [ht]; exact ⟨hm, le_rfl⟩
  | issue k w rest u hi hf ht =>
    obtain ⟨-, -, -, hmem, -, -, hdraws⟩ := focus_eq_some hf
    have hu : u.mem.wf := hmem ▸ hm
    obtain ⟨hwf, hle⟩ := commandRuns_wf_draws_le (runWords_next ht) hu
    exact ⟨hwf, hdraws ▸ hle⟩
  | write addr v rest hi ht => rw [ht]; exact ⟨Memory.write_wf hm addr.isLt v, le_rfl⟩
  | reset k rest u hi hf ht =>
    obtain ⟨-, -, -, hmem, -, -, hdraws⟩ := focus_eq_some hf
    rw [ht, resetEngine_mem, hmem, resetEngine_draws, hdraws]
    exact ⟨hm, Nat.le_succ s.draws⟩

/-- Settles O59: the step ends in `loseFaulted`, which draws every byte without a value afresh. -/
theorem lostBytesNeverRegainValue : Obligations.LostBytesNeverRegainValue := by
  intro s t hm h
  refine ⟨fun _ => mt (holdsValue_of_step h), fun a ha hlost => ?_⟩
  obtain ⟨u, hu, rfl⟩ := step_next h
  obtain ⟨hwf, hle⟩ := stepRuns_wf_draws_le hu hm
  have hlost : ¬ holdsValue u a := mt (holdsValue_of_engines (loseFaulted_engines u)) hlost
  obtain ⟨hread, hdraws⟩ := loseFaulted_read_of_not_holdsValue hwf ha hlost
  exact ⟨u.draws, hle, by rw [hdraws]; exact Nat.lt_succ_self u.draws, hread⟩

end Sys2Proof.Machine
end

section
/-! PROOF. Reset, idling, the IETF block budget and the host's duties (42_counter_advance.md, 70_reset_and_hazards.md).
`hostMove_refused` says once how the machine can refuse. A reset is `resetEngine` on the engine `focus` turns to. The
budget is read off `advances_getElem_13`. Duties met make the command complete, and a command that completes keeps the
fault record. -/

namespace Sys2Proof.Machine

/-! ### Nothing to do, and refused steps (R121) -/

theorem step_idle {s : State} (hin : s.inputs = []) : step s = .next (loseFaulted s) := by
  simp only [step, hin, idle, settle]

/-- A host action is refused only where `focus` finds no engine: no command is (`runWords_cases`). -/
theorem hostMove_refused {a : HostAction} {s : State} {r : Refusal} (h : hostMove a s = .refused r) :
    ∃ k, targetEngine a = some k ∧ s.focus k = none ∧ r = .noSuchEngine k := by
  cases a with
  | issue k w =>
    cases hf : s.focus k with
    | none => exact ⟨k, rfl, hf, by simpa [hostMove, hf] using h.symm⟩
    | some u =>
      obtain ⟨t, ht, -⟩ := runWords_cases w u
      simp [hostMove, hf, ht] at h
  | write addr v => cases h
  | reset k =>
    cases hf : s.focus k with
    | none => exact ⟨k, rfl, hf, by simpa [hostMove, hf] using h.symm⟩
    | some u => simp [hostMove, hf] at h

theorem settle_refused {outcome : Host.Outcome State Fault Refusal} {r : Refusal} (h : settle outcome = .refused r) :
    outcome = .refused r := by
  cases outcome <;> cases h
  rfl

/-- Settles O11: an idle step is `loseFaulted`, and a refused one is a refused action of the host. -/
theorem idleOrRefusedOnlyByHost : Obligations.IdleOrRefusedOnlyByHost := by
  refine fun s => ⟨fun hin => ⟨step_idle hin, fun hrun => ?_⟩, fun r h => ?_⟩
  · rw [step_idle hin, loseFaulted_of_running hrun]
  · cases hin : s.inputs with
    | nil => cases (step_idle hin).symm.trans h
    | cons a rest =>
      simp only [step, hin] at h
      obtain ⟨k, htarget, hnone, hr⟩ := hostMove_refused (settle_refused h)
      exact ⟨k, (focus_eq_none (s := s.pop)).1 hnone, hr, htarget⟩

/-! ### The reset event (R119) -/

/-- Settles O13: the engine `focus` turns to is reset, and with `READY` cleared both commands answer NOT_CONSTRUCTED. -/
theorem resetEventClearsEngine : Obligations.ResetEventClearsEngine := by
  intro s k rest e hin he hrun
  obtain ⟨hk, -⟩ := List.getElem?_eq_some_iff.1 he
  obtain ⟨u, hf⟩ := focus_of_lt (s := s.pop) hk
  obtain ⟨hengine, -, hindex, hmem, hadm, hinputs, -⟩ := focus_eq_some hf
  obtain ⟨hbefore, hafter⟩ := focus_around hf
  cases Option.some.inj (hengine.symm.trans he)
  have hready : (resetEngine u).engine.ready = false := resetEngine_engine_ready hrun
  refine ⟨resetEngine u, step_reset hin hf, hready, resetEngine_engine_results u,
    (resetEngine_engine_faulted u).trans hrun, hindex, hbefore, hafter, hmem, hadm, ?_, fun daddr saddr len => ?_⟩
  · rw [resetEngine_inputs, hinputs, State.pop_inputs, hin, List.tail_cons]
  · have hanswer : ∀ command, xorCommand command daddr saddr len (loseFaulted (resetEngine u)) =
        .next { loseFaulted (resetEngine u) with engine := { (resetEngine u).engine with results := [0x04#32] } } := by
      intro command
      rw [xorCommand_notConstructed (by rw [loseFaulted_engine, hready]), respond, loseFaulted_engine,
        resetEngine_engine_results]
      rfl
    exact ⟨(exec_encrypt ..).trans (hanswer _), (exec_decrypt ..).trans (hanswer _)⟩

/-! ### The IETF block budget (R125) -/

/-- Settles O32: `S[13]` takes its first carry when the count from CTR reaches 2^32, and `S[12]` is then 0. -/
theorem ietfBlockBudget : Obligations.IetfBlockBudget := by
  intro S q
  have hfill : S[12].toNat + (2 ^ 32 - S[12].toNat) = 2 ^ 32 := Nat.add_sub_of_le S[12].isLt.le
  refine ⟨fun hq => ?_, ?_, ?_⟩
  · have hcarry : (S[12].toNat + q) / 2 ^ 32 = 0 := Nat.div_eq_of_lt (by omega)
    rw [advances_getElem_13, hcarry, BitVec.add_zero]
  · apply BitVec.eq_of_toNat_eq
    rw [advances_getElem_12, BitVec.toNat_add, BitVec.toNat_ofNat, Nat.add_mod_mod, hfill]
    rfl
  · rw [advances_getElem_13, hfill, Nat.div_self (by decide)]

/-! ### Duties met (R123, R128, R129) -/

/-- An INIT completes where the duties of valid sizes are met: one of invalid sizes has none. -/
theorem exec_init_completes {klen nlen kaddr naddr : Word} (ctr : Word) {s : State}
    (h : klen = 32#32 → nlen = 8#32 ∨ nlen = 12#32 → InitDuties s kaddr naddr nlen) :
    ∃ t, exec (.init klen nlen kaddr naddr ctr) s = .next t := by
  by_cases hvalid : klen = 32#32 ∧ (nlen = 8#32 ∨ nlen = 12#32)
  · obtain ⟨rfl, hn⟩ := hvalid
    exact ⟨_, exec_init_of_duties ctr hn (h rfl hn)⟩
  · obtain ⟨c, hc⟩ := exec_init_of_bad_size ((not_and_or.1 hvalid).imp_right not_or.1)
    exact ⟨_, hc ..⟩

/-- An ENCRYPT or DECRYPT completes where the duties of a constructed engine are met: another engine has none. -/
theorem xorCommand_completes (command : Instr) {daddr saddr len : Word} {s : State}
    (h : s.engine.ready = true → XorDuties s daddr saddr len) :
    ∃ t, xorCommand command daddr saddr len s = .next t := by
  cases hready : s.engine.ready with
  | false => exact ⟨_, xorCommand_notConstructed hready⟩
  | true => exact ⟨_, xorCommand_of_duties hready (h hready)⟩

/-- Words whose command completes leave the fault record of the engine as it is. -/
theorem commandRuns_keeps_faulted {w : Words} {i : Instr} {s t : State} (h : CommandRuns w s t) (hw : decode w = .ok i)
    (hi : ∃ u, exec i s = .next u) : t.engine.faulted = s.engine.faulted := by
  cases h with
  | stopped fault hf ht => rw [ht]
  | illegal reason hf hillegal ht => cases hw.symm.trans hillegal
  | completes j hf hj ht =>
    obtain ⟨-, hfaulted, -⟩ := exec_keeps ht
    exact hfaulted
  | faults j fault hf hj he hcommand ht =>
    cases hw.symm.trans hj
    obtain ⟨u, hu⟩ := hi
    cases hu.symm.trans he

theorem map_faulted_of_keeps {s t : State} (h : CommandKeeps s t) (hf : t.engine.faulted = s.engine.faulted) :
    t.engines.map (·.faulted) = s.engines.map (·.faulted) := by
  simp only [State.engines, h.before, h.after, List.map_append, List.map_cons, hf]

/-- Words are a safe step where the command they decode to completes on the engine they are given to. -/
theorem safeStep_of_completes {s u : State} {k : Nat} {w : Words} {rest : List HostAction} {i : Instr}
    (hin : s.inputs = .issue k w :: rest) (hf : s.pop.focus k = some u) (hw : decode w = .ok i)
    (hi : ∃ t, exec i u = .next t) : safeStep s := by
  obtain ⟨t, ht, hruns⟩ := runWords_cases w u
  obtain ⟨-, hengines, -⟩ := focus_eq_some hf
  refine ⟨loseFaulted t, by rw [step_issue hin hf, ht, settle], ?_⟩
  rw [loseFaulted_engines, map_faulted_of_keeps (runWords_keeps ht) (commandRuns_keeps_faulted hruns hw hi), hengines,
    engines_pop]

/-- Settles O57: turning to the engine keeps the platform, so the duties met before it are met there, and each command
completes with them. -/
theorem dutifulCommandIsSafe : Obligations.DutifulCommandIsSafe := by
  intro s k w rest i e hin he hw hduties
  obtain ⟨hk, -⟩ := List.getElem?_eq_some_iff.1 he
  obtain ⟨u, hf⟩ := focus_of_lt (s := s.pop) hk
  obtain ⟨hengine, -, -, -, hadm, -⟩ := focus_eq_some hf
  have hplatform : u.admitted = s.admitted := hadm.trans (State.pop_admitted s)
  cases Option.some.inj (hengine.symm.trans he)
  refine safeStep_of_completes hin hf hw ?_
  cases i with
  | init klen nlen kaddr naddr ctr =>
    exact exec_init_completes ctr fun hklen hn => (initDuties_congr hplatform).2 (hduties hklen hn)
  | encrypt daddr saddr len => exact xorCommand_completes _ fun hready => (xorDuties_congr hplatform).2 (hduties hready)
  | decrypt daddr saddr len => exact xorCommand_completes _ fun hready => (xorDuties_congr hplatform).2 (hduties hready)

end Sys2Proof.Machine
end

section
/-! PROOF. The constants INIT builds (R15, R67). The hexadecimal values of `sigma` are read as ASCII codes once, in
`sigma_values_eq_ascii`; that a constructed state begins with them is `constantsHold_initNext`. -/

namespace Sys2Proof.Machine

/-- The constant words are "expand 32-byte k", four codes to a word (R67, log entry 15). -/
theorem sigma_values_eq_ascii :
    [sigma 0, sigma 1, sigma 2, sigma 3] =
      [le32 0x65#8 0x78#8 0x70#8 0x61#8, le32 0x6e#8 0x64#8 0x20#8 0x33#8,
        le32 0x32#8 0x2d#8 0x62#8 0x79#8, le32 0x74#8 0x65#8 0x20#8 0x6b#8] := by decide

/-- The first four of sixteen words, by their indices. -/
theorem take_four_toList (S : Words16) : S.toList.take 4 = [S[0], S[1], S[2], S[3]] :=
  List.ext_getElem (by simp) fun i _ hi => by
    have : i < 4 := hi
    interval_cases i <;> simp

/-- The constant region as a list (R67). -/
theorem take_four_of_constantsHold {S : Words16} (h : constantsHold S) :
    S.toList.take 4 = [sigma 0, sigma 1, sigma 2, sigma 3] := by
  obtain ⟨h0, h1, h2, h3⟩ := h
  rw [take_four_toList, h0, h1, h2, h3]

/-- Settles O20: an INIT that meets its duties constructs, and what it constructs holds the constants. -/
theorem initSetsSigmaConstants : Obligations.InitSetsSigmaConstants := by
  intro nlen kaddr naddr ctr s hn hd
  have hconstants := constantsHold_initNext nlen kaddr naddr ctr s
  exact ⟨_, exec_init_of_duties ctr hn hd, (take_four_of_constantsHold hconstants).trans sigma_values_eq_ascii⟩

end Sys2Proof.Machine
end
